-- ==== Sys2Proof/Word.lean ====
section
/-! DEFINITION. The two word types of the block: 32-bit port words and 8-bit data. -/

namespace Sys2Proof

/-- A port word: every register, every port offset and the two scan counters are 32 bits wide
(00_scope.md R11, 10_state.md R21, R33). -/
abbrev Word := BitVec 32

/-- A datum of the raw sequence, the encoded sequence, IN and OUT (00_scope.md R6). -/
abbrev Byte := BitVec 8

end Sys2Proof
end

