-- ==== Sys2Proof/Config.lean ====
section
/-! DEFINITION. What an implementation of the block fixes, and the values the spec leaves free. A free
value is an opaque constant: nothing in Lean can evaluate it or prove a value of it. -/

namespace Sys2Proof.Config

/-- MAX_RUN, the most occurrences one encoded record covers: 257 for this hardware (00_scope.md R7,
90_conflicts.md C1). -/
def maxRun : Nat := 257

/-- DEC_ARM_AFTER_RUN: false for this hardware (00_scope.md R10, 90_conflicts.md C2). -/
def decArmAfterRun : Bool := false

/-- The two capacities of an implementation, each in 0..2^30 (00_scope.md R9). -/
structure Params where
  inCap : Fin (2 ^ 30 + 1)
  outCap : Fin (2 ^ 30 + 1)
deriving DecidableEq, Repr

/-- IN_CAP of the implementation that `State.reset` describes: an OPEN parameter (00_scope.md R9, log 8). -/
opaque inCap : Fin (2 ^ 30 + 1)

/-- OUT_CAP of the implementation that `State.reset` describes: an OPEN parameter (00_scope.md R9, log 8). -/
opaque outCap : Fin (2 ^ 30 + 1)

/-- The parameters of the implementation that `State.reset` describes. -/
def params : Params := ⟨inCap, outCap⟩

/-- BLOCK_BASE, the platform's choice (00_scope.md R11). The port carries offsets from it, so no
definition of the block reads it (log 8). -/
opaque blockBase : Nat

/-- The k-th "any value" the machine draws: undefined reads, and registers the spec leaves at any
value (93_implementation_defined.md entries 11 to 14 and 16; log 3, 5, 7). -/
opaque freeWord : Nat → Word

/-- IN[i] after the n-th reset, for a byte the host has not written since (10_state.md R40,
70_reset_and_hazards.md R231; log 4): `freeIn n i`. -/
opaque freeIn : Nat → Nat → Byte

end Sys2Proof.Config
end

