-- ==== Sys2Proof/Syntax.lean ====
section
/-! DEFINITION. The syntax: one constructor per row of spec/opcode_table.json, and the two forms in which
an instruction's bits reach the block. -/

namespace Sys2Proof

/-- The rows of the opcode table. The four commands carry bits 31..2 of the CMD word, which have no
effect (30_encoding.md R74, R77); they are kept so that no bit of an encoding is lost. -/
inductive Instr where
  /-- NOP, OP = 0b00 (42_command.md R161). -/
  | nop (ignored : BitVec 30)
  /-- ENCODE, OP = 0b01 (40_encode.md R100). -/
  | encode (ignored : BitVec 30)
  /-- DECODE, OP = 0b10 (41_decode.md R130). -/
  | decode (ignored : BitVec 30)
  /-- The reserved command, OP = 0b11 (42_command.md R162). -/
  | reserved (ignored : BitVec 30)
  /-- The literal record `[v]` (30_encoding.md R70, 41_decode.md R134). -/
  | lit (v : Byte)
  /-- The run record `[v, v, len]`: `len + 2` occurrences of v (30_encoding.md R70, R72, 41_decode.md R135). -/
  | run (v : Byte) (len : Byte)
deriving DecidableEq, Repr

/-- Where an instruction's bits stand: one 32-bit word written to CMD, or bytes of the encoded stream,
the first byte first (30_encoding.md R70, R74). -/
inductive Code where
  | command (w : Word)
  | stream (bytes : List Byte)
deriving DecidableEq, Repr

end Sys2Proof
end

