-- ==== Sys2Proof/WellFormed.lean ====
section
/-! DEFINITION. Well-formedness. Every single instruction is well-formed by its type (each operand takes
every value: 30_encoding.md R73, R77). What can be ill-formed is a SEQUENCE of stream records: the spec
separates records only by comparing neighbouring bytes (30_encoding.md R71). -/

namespace Sys2Proof

/-- An instruction that is a record of the encoded stream (30_encoding.md R70). -/
def Instr.isRecord : Instr → Bool
  | .lit _ | .run _ _ => true
  | .nop _ | .encode _ | .decode _ | .reserved _ => false

/-- The byte value a record stands for. -/
def Instr.value : Instr → Option Byte
  | .lit v | .run v _ => some v
  | .nop _ | .encode _ | .decode _ | .reserved _ => none

/-- May `next` follow `i` in an encoded stream? A literal is followed by a byte other than its own,
or the two would be read as a repetition marker (41_decode.md R133); after a run record the decoder
is not armed, so anything may follow (41_decode.md R140). -/
def Instr.mayPrecede (i next : Instr) : Bool :=
  match i with
  | .lit v => next.value != some v
  | .run _ _ => true
  | .nop _ | .encode _ | .decode _ | .reserved _ => false

/-- May `next` follow `i` in a canonical stream (41_decode.md R146)? A run record is followed by a
record of the same value only when it is full. -/
def Instr.mayPrecedeCanonically (i next : Instr) : Bool :=
  match i with
  | .lit v => next.value != some v
  | .run v len => next.value != some v || len.toNat == Config.maxRun - 2
  | .nop _ | .encode _ | .decode _ | .reserved _ => false

/-- A sequence of records whose bytes the decoder splits at the same places: records only, and each
neighbour allowed by `Instr.mayPrecede`. -/
def Stream.wellFormed : List Instr → Bool
  | [] => true
  | [i] => i.isRecord
  | i :: j :: rest => i.isRecord && i.mayPrecede j && Stream.wellFormed (j :: rest)

/-- A sequence of records with the neighbours of a canonical stream (41_decode.md R146). -/
def Stream.canonical : List Instr → Bool
  | [] => true
  | [i] => i.isRecord
  | i :: j :: rest => i.isRecord && i.mayPrecedeCanonically j && Stream.canonical (j :: rest)

end Sys2Proof
end

