-- ==== Sys2Proof/Decode.lean ====
section
/-! DEFINITION. Decoding (total; what it rejects, it rejects by name) and, after it, encoding, both written
from 30_encoding.md R70 to R77. -/

namespace Sys2Proof

/-- Why bytes of a stream do not begin with a whole record. -/
inductive DecodeReject where
  /-- There is no byte left. -/
  | endOfStream
  /-- A repetition marker is the last byte (60_exceptions.md R201). The stream was `[v, v]`. -/
  | truncatedMarker (v : Byte)
deriving DecidableEq, Repr

/-- OP = CMD[1:0] selects the command; bits 31..2 are ignored (30_encoding.md R74, R75, R77). Every
word is a command. -/
def decodeCommand (w : Word) : Instr :=
  let ignored : BitVec 30 := w.extractLsb' 2 30
  match (w.extractLsb' 0 2).toNat with
  | 0 => .nop ignored
  | 1 => .encode ignored
  | 2 => .decode ignored
  | _ => .reserved ignored

/-- The record at the front of a stream, and the bytes after it (30_encoding.md R70, R71). The first
byte of a record is never a marker (41_decode.md R139, R140); a second byte equal to it is the
marker of a run record, and the third is then its length byte (41_decode.md R133, R135). -/
def decodeRecord : List Byte → Except DecodeReject (Instr × List Byte)
  | [] => .error .endOfStream
  | [v] => .ok (.lit v, [])
  | v :: w :: rest =>
    if v = w then
      match rest with
      | [] => .error (.truncatedMarker v)
      | len :: rest' => .ok (.run v len, rest')
    else .ok (.lit v, w :: rest)

/-- The instruction an encoding begins with, and what is left of it. -/
def decode : Code → Except DecodeReject (Instr × List Byte)
  | .command w => .ok (decodeCommand w, [])
  | .stream bytes => decodeRecord bytes

/-- Splits a whole stream into its records, parsing from its first byte (30_encoding.md R71). `fuel` is
the number of records to read at most; the stream's length is enough. -/
def decodeStreamFuel : Nat → List Byte → Except DecodeReject (List Instr)
  | _, [] => .ok []
  | 0, _ :: _ => .error .endOfStream
  | fuel + 1, b :: bytes =>
    match decodeRecord (b :: bytes) with
    | .error e => .error e
    | .ok (i, rest) =>
      match decodeStreamFuel fuel rest with
      | .error e => .error e
      | .ok is => .ok (i :: is)

/-- The records of a stream (30_encoding.md R70, R71). -/
def decodeStream (bytes : List Byte) : Except DecodeReject (List Instr) :=
  decodeStreamFuel bytes.length bytes

/-! ### The encoder -/

/-- The CMD word with a given OP field (30_encoding.md R74). -/
def commandWord (ignored : BitVec 30) (op : BitVec 2) : Word := ignored ++ op

/-- The bytes of a stream record (30_encoding.md R70); a command has none. -/
def recordBytes : Instr → List Byte
  | .lit v => [v]
  | .run v len => [v, v, len]
  | .nop _ | .encode _ | .decode _ | .reserved _ => []

/-- The bits of an instruction (30_encoding.md R70, R75). -/
def encode : Instr → Code
  | .nop ignored => .command (commandWord ignored 0b00#2)
  | .encode ignored => .command (commandWord ignored 0b01#2)
  | .decode ignored => .command (commandWord ignored 0b10#2)
  | .reserved ignored => .command (commandWord ignored 0b11#2)
  | .lit v => .stream [v]
  | .run v len => .stream [v, v, len]

/-- A stream of records as bytes: records stand one after the other, with nothing between them
(30_encoding.md R70). -/
def encodeStream (records : List Instr) : List Byte := records.flatMap recordBytes

/-! ### The opcode table's words -/

/-- The first `k` bytes of a number, least significant byte first: the byte at the lowest position of
the stream is bits 7..0. -/
def tableBytes : Nat → Nat → List Byte
  | 0, _ => []
  | k + 1, w => BitVec.ofNat 8 w :: tableBytes k (w / 256)

/-- The code a table row's word stands for: the CMD32 format is one 32-bit word; the STREAM formats
are `nbits / 8` bytes of the encoded stream, and the stream ends after them (log 14). -/
def tableCode (nbits w : Nat) : Code :=
  if nbits = 32 then .command (BitVec.ofNat 32 w) else .stream (tableBytes (nbits / 8) w)

/-- The instruction the decoder reads from a table row's word. -/
def decodeTableWord (nbits w : Nat) : Option Instr :=
  match decode (tableCode nbits w) with
  | .ok (i, _) => some i
  | .error _ => none

end Sys2Proof
end

