-- ==== Sys2Proof/Machine/State.lean ====
section
/-! DEFINITION. The state of the block (10_state.md), the events at its port, its reset value, and the
reasons a step can stop. -/

namespace Sys2Proof.Machine

/-- STATUS.ERR (60_exceptions.md R200). Codes 5 to 7 are never produced, so they have no constructor. -/
inductive ErrCode where
  /-- 0 NONE. -/
  | noError
  /-- 1 MALFORMED. -/
  | malformed
  /-- 2 OVERFLOW. -/
  | overflow
  /-- 3 BADCMD. -/
  | badCmd
  /-- 4 BADLEN. -/
  | badLen
deriving DecidableEq, Repr

/-- The running command (10_state.md R33). -/
inductive Op where
  /-- NONE: no operation runs. -/
  | none
  /-- ENC: an ENCODE runs. -/
  | enc
  /-- DEC: a DECODE runs. -/
  | dec
deriving DecidableEq, Repr

/-- The width of a port access (30_encoding.md R78, 20_memory.md R51). -/
inductive Width where
  | w8
  | w16
  | w32
deriving DecidableEq, Repr

/-- One host access, at a byte offset from BLOCK_BASE (00_scope.md R11, 30_encoding.md R78). A write
narrower than 32 bits takes the low bits of `data` (log 13). -/
inductive Access where
  | read (width : Width) (offset : Word)
  | write (width : Width) (offset : Word) (data : Word)
deriving DecidableEq, Repr

/-- What can happen next at the block: a host access, one turn of the engine, or the platform asserting
reset (20_memory.md R59, 42_command.md R165, 70_reset_and_hazards.md R230; log 2). -/
inductive Event where
  | access (a : Access)
  | engine
  | reset
deriving DecidableEq, Repr

/-- Why the machine stops. -/
inductive Fault where
  /-- Raised by an engine turn (`Machine.encodeTurn`, `Machine.decodeTurn`) of a running operation with
  `ipos > IN_LEN`, for which the spec has no rule: 10_state.md R36 keeps `ipos` in 0..N. Safe: the model
  stops, and no state that satisfies the invariant raises it (log 11). -/
  | scanPastEnd
deriving DecidableEq, Repr

/-- Why a step has no meaning. -/
inductive Refusal where
  /-- Raised by an arm of `Machine.exec` for an instruction that has no meaning yet; no arm does. Safe:
  the model stops. -/
  | notModelled (mnemonic : String)
deriving DecidableEq, Repr

/-- Everything the spec gives the block (10_state.md R20), and the model's own bookkeeping (the last
four fields). ID and CMD hold no state (10_state.md R22, R23). -/
structure State where
  /-- IN_CAP, a constant (10_state.md R28). -/
  inCap : Word
  /-- OUT_CAP, a constant (10_state.md R29). -/
  outCap : Word
  /-- STATUS.BUSY (10_state.md R24). -/
  busy : Bool
  /-- STATUS.DONE (10_state.md R24). -/
  done : Bool
  /-- STATUS.ERR (10_state.md R24, 60_exceptions.md R200). -/
  err : ErrCode
  /-- IN_LEN (10_state.md R26). -/
  inLen : Word
  /-- OUT_LEN (10_state.md R27). -/
  outLen : Word
  /-- ERR_POS (10_state.md R30). -/
  errPos : Word
  /-- The bytes of IN written since reset, by index (10_state.md R32, R40; log 4, 9). -/
  inBuf : List Host.Cell
  /-- The bytes of OUT that hold a Put byte, by index; every other byte is any value (10_state.md R32,
  20_memory.md R53; log 5, 9). -/
  outBuf : List Host.Cell
  /-- `op` (10_state.md R33). -/
  op : Op
  /-- `ipos`, the scan index (10_state.md R36). -/
  ipos : Word
  /-- `opos`, the output count (10_state.md R37). -/
  opos : Word
  /-- `e_open`: a chunk is being accumulated (10_state.md R34). -/
  eOpen : Bool
  /-- `e_val`: the chunk's byte (10_state.md R34). -/
  eVal : Byte
  /-- `e_rep`: the chunk has two or more occurrences (10_state.md R34). -/
  eRep : Bool
  /-- `e_cnt`: with `e_rep = 1`, the occurrences minus 2 (10_state.md R34). -/
  eCnt : Byte
  /-- `d_prev`: the previous value seen (10_state.md R35). -/
  dPrev : Byte
  /-- `d_armed`: a byte equal to `d_prev` is a repetition marker (10_state.md R35). -/
  dArmed : Bool
  /-- The host accesses, engine turns and resets still to come, in their order (log 2). -/
  input : List Event
  /-- The values the host's reads have returned, newest first (log 13). -/
  responses : List Word
  /-- How many free values have been drawn (log 3). -/
  draws : Nat
  /-- How many resets have been applied: which free contents IN has (log 4). -/
  resets : Nat
deriving DecidableEq, Repr

/-- The state right after reset of an implementation with parameters `p` (70_reset_and_hazards.md R230).
The internal registers but `op` are unspecified at reset and stand at 0 here (log 6); no byte of IN or
OUT is listed, so each is any value (R231). -/
def State.resetWith (p : Config.Params) : State where
  inCap := BitVec.ofNat 32 p.inCap.val
  outCap := BitVec.ofNat 32 p.outCap.val
  busy := false
  done := false
  err := .noError
  inLen := 0#32
  outLen := 0#32
  errPos := 0#32
  inBuf := []
  outBuf := []
  op := .none
  ipos := 0#32
  opos := 0#32
  eOpen := false
  eVal := 0#8
  eRep := false
  eCnt := 0#8
  dPrev := 0#8
  dArmed := false
  input := []
  responses := []
  draws := 0
  resets := 0

/-- The state right after reset, with the implementation's own parameters. -/
def State.reset : State := State.resetWith Config.params

end Sys2Proof.Machine
end

