-- ==== Sys2Proof/Machine/Flags.lean ====
section
/-! DEFINITION. The flags and codes: how STATUS.ERR is numbered and how the STATUS word is put together
(10_state.md R24, R38, 60_exceptions.md R200). -/

namespace Sys2Proof.Machine

/-- The number of an error code (60_exceptions.md R200). -/
def ErrCode.code : ErrCode → BitVec 3
  | .noError => 0#3
  | .malformed => 1#3
  | .overflow => 2#3
  | .badCmd => 3#3
  | .badLen => 4#3

/-- The STATUS word (10_state.md R24): ERR in bits 4..2, DONE in bit 1, BUSY in bit 0, the rest 0. -/
def State.statusWord (s : State) : Word :=
  0#27 ++ s.err.code ++ BitVec.ofBool s.done ++ BitVec.ofBool s.busy

/-- The OUT window shows stored bytes only after a completion without error (20_memory.md R53). -/
def State.outReadable (s : State) : Bool :=
  !s.busy && s.done && s.err == .noError

end Sys2Proof.Machine
end

