-- ==== Sys2Proof/Machine/Operands.lean ====
section
/-! DEFINITION. The operand forms: the buffers as memories, the bytes of IN an operation reads, the sentinel
and the marker test. -/

namespace Sys2Proof.Machine

/-! ### Byte memories

A buffer is the list of the bytes that hold a stored value, by index, strictly rising. An unlisted byte
has no stored value (log 9). -/

/-- The stored byte at an index, if there is one. -/
def Memory.get? : List Host.Cell → Nat → Option Byte
  | [], _ => none
  | (k, v) :: m, i => if k = i then some v else Memory.get? m i

/-- Stores a byte at an index, keeping the indices strictly rising. -/
def Memory.set : List Host.Cell → Nat → Byte → List Host.Cell
  | [], i, b => [(i, b)]
  | (k, v) :: m, i, b =>
    if i < k then (i, b) :: (k, v) :: m
    else if i = k then (i, b) :: m
    else (k, v) :: Memory.set m i b

/-- Stores bytes at consecutive indices. -/
def Memory.setAll : List Host.Cell → Nat → List Byte → List Host.Cell
  | m, _, [] => m
  | m, i, b :: bs => Memory.setAll (Memory.set m i b) (i + 1) bs

/-- The canonical form: indices strictly rising. -/
def Memory.wf : List Host.Cell → Bool
  | [] => true
  | [_] => true
  | (i, _) :: (j, w) :: m => decide (i < j) && Memory.wf ((j, w) :: m)

/-! ### The input sequence -/

/-- IN[i]: the byte the host wrote there since reset, or a free value (10_state.md R40; log 4). -/
def State.inByte (s : State) (i : Nat) : Byte :=
  (Memory.get? s.inBuf i).getD (Config.freeIn s.resets i)

/-- The operand `x = IN[0..N)` with N = IN_LEN (30_encoding.md R76). -/
def State.inputSeq (s : State) : List Byte :=
  (List.range s.inLen.toNat).map s.inByte

/-- The stored bytes of `OUT[0..OUT_LEN)` (10_state.md R27). -/
def State.outputSeq (s : State) : List (Option Byte) :=
  (List.range s.outLen.toNat).map (Memory.get? s.outBuf)

/-- The byte at the scan index. -/
def State.currentByte (s : State) : Byte := s.inByte s.ipos.toNat

/-- What the decoder fetches at the scan index: the next bytes of the input, at most the three of the
longest record, and none at or above IN_LEN (20_memory.md R56). -/
def State.fetchBytes (s : State) : List Byte :=
  (List.range (min 3 (s.inLen.toNat - s.ipos.toNat))).map fun k => s.inByte (s.ipos.toNat + k)

/-- The sentinel: a previous value the first byte cannot equal (41_decode.md R131). -/
def sentinel (b : Byte) : Byte := if b = 0xFF#8 then 0xFE#8 else b + 1#8

/-- The marker condition for a byte read at the scan index (41_decode.md R133). -/
def State.isMarker (s : State) (c : Byte) : Bool := s.dArmed && c == s.dPrev

/-- Is `n`, the occurrences in the open chunk, at MAX_RUN: `e_rep = 1` and `e_cnt = MAX_RUN - 2`
(40_encode.md R105)? -/
def State.chunkFull (s : State) : Bool := s.eRep && s.eCnt.toNat == Config.maxRun - 2

/-- The record of the open chunk, as EmitChunk writes it (40_encode.md R107). -/
def State.chunkRecord (s : State) : List Byte :=
  if s.eRep then [s.eVal, s.eVal, s.eCnt] else [s.eVal]

end Sys2Proof.Machine
end

