-- ==== Sys2Proof/Machine/Ops.lean ====
section
/-! DEFINITION. The shared operations: free draws, Put, the two completions (an error completion is this
block's taking of an exception), the start of an operation, and reset. -/

namespace Sys2Proof.Machine

/-- The free value `k` places after the next one to draw (log 3). -/
def State.free (s : State) (k : Nat) : Word := Config.freeWord (s.draws + k)

/-- The state with other events still to come. -/
def State.withInput (s : State) (events : List Event) : State := { s with input := events }

/-- An error raised inside an operation: its code and position (60_exceptions.md R205). -/
structure Raise where
  code : ErrCode
  pos : Word
deriving DecidableEq, Repr

/-! ### Output -/

/-- Put(v) (42_command.md R166): OVERFLOW at `opos = OUT_CAP`, else the byte is appended. -/
def put (v : Byte) (s : State) : Except Raise State :=
  if s.opos = s.outCap then .error ⟨.overflow, s.ipos⟩
  else .ok { s with outBuf := Memory.set s.outBuf s.opos.toNat v, opos := s.opos + 1#32 }

/-- One Put after the other; the first that raises ends the sequence (42_command.md R166). -/
def putAll : List Byte → State → Except Raise State
  | [], s => .ok s
  | v :: vs, s => (put v s).bind (putAll vs)

/-! ### Completion -/

/-- Successful completion (42_command.md R167). -/
def completeOk (s : State) : State :=
  { s with busy := false, done := true, err := .noError,
           outLen := s.opos, errPos := 0#32, op := .none }

/-- Error completion, `raise E(pos)` (60_exceptions.md R205). It needs no saved state and no handler.
OUT holds any value after it (no byte is listed), and so does the internal engine state: eight free
draws (log 5, 7). -/
def errorCompletion (code : ErrCode) (pos : Word) (s : State) : State :=
  { s with busy := false, done := true, err := code,
           outLen := 0#32, errPos := pos, op := .none,
           outBuf := [],
           ipos := s.free 0, opos := s.free 1,
           eOpen := (s.free 2).getLsbD 0, eVal := (s.free 3).setWidth 8,
           eRep := (s.free 4).getLsbD 0, eCnt := (s.free 5).setWidth 8,
           dPrev := (s.free 6).setWidth 8, dArmed := (s.free 7).getLsbD 0,
           draws := s.draws + 8 }

/-- The end of an engine step that began in `s`: the state it reached, or the error completion. All
output of a command that raises is discarded (60_exceptions.md R205). -/
def settle (s : State) : Except Raise State → State
  | .ok t => t
  | .error r => errorCompletion r.code r.pos s

/-! ### Start -/

/-- What every start does (42_command.md R164): BUSY, the operation, both counters at 0. From here to
the completion OUT_LEN and ERR_POS hold any value, and so does OUT (42_command.md R170; log 5). -/
def beginOperation (op : Op) (s : State) : State :=
  { s with busy := true, done := false, err := .noError, op := op,
           ipos := 0#32, opos := 0#32,
           outLen := s.free 0, errPos := s.free 1, outBuf := [],
           draws := s.draws + 2 }

/-- The ENCODE start (40_encode.md R104). -/
def startEncode (s : State) : State :=
  { beginOperation .enc s with eOpen := false }

/-- The DECODE start (41_decode.md R132); an empty input completes at once. -/
def startDecode (s : State) : State :=
  if s.inLen = 0#32 then completeOk (beginOperation .dec s)
  else { beginOperation .dec s with dPrev := sentinel (s.inByte 0), dArmed := true }

/-- The checks of a CMD write that names an operation, in their order (42_command.md R160, R163, R169,
60_exceptions.md R207): BUSY, then the length, then the start. -/
def launch (start : State → State) (s : State) : State :=
  if s.busy then s
  else if s.inCap < s.inLen then errorCompletion .badLen 0#32 s
  else start s

/-! ### Reset -/

/-- The reset input (70_reset_and_hazards.md R230, R231, R233, R241): every register at its reset value,
no completion, fresh contents of IN and OUT. The parameters are the implementation's; the events still
to come, the responses already given and the free-value counter are no state of the block (log 3, 4). -/
def applyReset (s : State) : State :=
  { State.reset with
      inCap := s.inCap, outCap := s.outCap,
      input := s.input, responses := s.responses,
      draws := s.draws, resets := s.resets + 1 }

end Sys2Proof.Machine
end

