-- ==== Sys2Proof/Machine/Commands.lean ====
section
/-! DEFINITION. The meanings of the four commands: what a CMD write does (42_command.md R160 to R164). The
operand is bits 31..2 of the word, which have no effect (30_encoding.md R77). The engine then runs an
operation turn by turn (Machine/Engine.lean). -/

namespace Sys2Proof.Machine

/-- NOP (42_command.md R161): no state changes, BUSY or not. -/
def execNop (_ignored : BitVec 30) (s : State) : Host.Outcome State Fault Refusal :=
  .next s

/-- ENCODE (40_encode.md R100): the checks, then the start. -/
def execEncode (_ignored : BitVec 30) (s : State) : Host.Outcome State Fault Refusal :=
  .next (launch startEncode s)

/-- DECODE (41_decode.md R130): the checks, then the start. -/
def execDecode (_ignored : BitVec 30) (s : State) : Host.Outcome State Fault Refusal :=
  .next (launch startDecode s)

/-- The reserved command (42_command.md R162): BADCMD(0) unless BUSY (R169, 60_exceptions.md R203). -/
def execReserved (_ignored : BitVec 30) (s : State) : Host.Outcome State Fault Refusal :=
  .next (if s.busy then s else errorCompletion .badCmd 0#32 s)

end Sys2Proof.Machine
end

