-- ==== Sys2Proof/Machine/Records.lean ====
section
/-! DEFINITION. The meanings of the two stream records: the decoder's steps (41_decode.md R133 to R137). The
engine runs them while `op = DEC` (Machine/Engine.lean). -/

namespace Sys2Proof.Machine

/-- The literal step for the byte `c` at the scan index (41_decode.md R134). -/
def literalStep (c : Byte) (s : State) : Except Raise State :=
  (put c s).bind fun t => .ok { t with dPrev := c, dArmed := true, ipos := t.ipos + 1#32 }

/-- The marker step for the marker `c` at the scan index and its length byte (41_decode.md R135, the
part after the truncation check). `arm` is DEC_ARM_AFTER_RUN. -/
def markerStepWith (arm : Bool) (c len : Byte) (s : State) : Except Raise State :=
  (putAll (List.replicate (len.toNat + 1) c) s).bind fun t =>
    .ok { t with dPrev := c, dArmed := arm, ipos := t.ipos + 2#32 }

/-- The marker step of this hardware (00_scope.md R10). -/
def markerStep (c len : Byte) (s : State) : Except Raise State :=
  markerStepWith Config.decArmAfterRun c len s

/-- The marker step with its truncation check, reading IN (41_decode.md R135): MALFORMED before any
Put (R137). -/
def markerTurn (s : State) : Except Raise State :=
  if s.ipos.toNat + 1 = s.inLen.toNat then .error ⟨.malformed, s.ipos⟩
  else markerStep s.currentByte (s.inByte (s.ipos.toNat + 1)) s

/-- The decoder's step at the spec's own granularity: one byte of the scan, a literal or a marker
(41_decode.md R133). `decodeTurn` takes a record at a time; the two agree (log 1). -/
def byteTurn (s : State) : Except Raise State :=
  if s.isMarker s.currentByte then markerTurn s else literalStep s.currentByte s

/-- LIT v (41_decode.md R134). -/
def execLit (v : Byte) (s : State) : Host.Outcome State Fault Refusal :=
  .next (settle s (literalStep v s))

/-- RUN v len: its first byte is a literal, its second the marker with the length byte after it
(30_encoding.md R70, 41_decode.md R134, R135). An error carries the position of the byte whose step
raised it (R137). -/
def execRun (v len : Byte) (s : State) : Host.Outcome State Fault Refusal :=
  .next (settle s ((literalStep v s).bind (markerStep v len)))

end Sys2Proof.Machine
end

