-- ==== Sys2Proof/Machine/Dispatch.lean ====
section
/-! DEFINITION. One arm per instruction. -/

namespace Sys2Proof.Machine

def exec (i : Instr) (s : State) : Host.Outcome State Fault Refusal :=
  match i with
  | .nop ignored => Sys2Proof.Machine.execNop ignored s
  | .encode ignored => Sys2Proof.Machine.execEncode ignored s
  | .decode ignored => Sys2Proof.Machine.execDecode ignored s
  | .reserved ignored => Sys2Proof.Machine.execReserved ignored s
  | .lit v => Sys2Proof.Machine.execLit v s
  | .run v len => Sys2Proof.Machine.execRun v len s

end Sys2Proof.Machine
end

