-- ==== Sys2Proof/Machine/Encoder.lean ====
section
/-! DEFINITION. The encoder's steps (40_encode.md R105 to R107). The engine runs them while `op = ENC`
(Machine/Engine.lean). -/

namespace Sys2Proof.Machine

/-- EmitChunk (40_encode.md R107): the open chunk's record, through Put. -/
def emitChunk (s : State) : Except Raise State := putAll s.chunkRecord s

/-- Opens a chunk of one occurrence of `b` (40_encode.md R105). -/
def openChunk (b : Byte) (s : State) : State :=
  { s with eOpen := true, eVal := b, eRep := false, eCnt := 0#8 }

/-- Counts one more occurrence in the open chunk (40_encode.md R105). -/
def extendChunk (s : State) : State :=
  if s.eRep then { s with eCnt := s.eCnt + 1#8 } else { s with eRep := true, eCnt := 0#8 }

/-- What the byte `b` at the scan index does to the chunk (40_encode.md R105): it opens the first
chunk, extends the open one, or closes it and opens the next. -/
def encodeByte (b : Byte) (s : State) : Except Raise State :=
  if !s.eOpen then .ok (openChunk b s)
  else if b = s.eVal ∧ s.chunkFull = false then .ok (extendChunk s)
  else (emitChunk s).bind fun t => .ok (openChunk b t)

/-- The ENCODE step (40_encode.md R105). -/
def encodeStep (s : State) : Except Raise State :=
  (encodeByte s.currentByte s).bind fun t => .ok { t with ipos := t.ipos + 1#32 }

/-- The ENCODE finish (40_encode.md R106). -/
def encodeFinish (s : State) : Except Raise State :=
  (if s.eOpen then emitChunk s else .ok s).bind fun t => .ok (completeOk t)

end Sys2Proof.Machine
end

