-- ==== Sys2Proof/Machine/Engine.lean ====
section
/-! DEFINITION. The engine's turns (42_command.md R165): one step of the running operation. -/

namespace Sys2Proof.Machine

/-- One turn of a running ENCODE: a step while `ipos < N`, the finish at `ipos = N` (40_encode.md R100,
R105, R106). Past N no rule applies (log 11). -/
def encodeTurn (s : State) : Host.Outcome State Fault Refusal :=
  if s.ipos.toNat < s.inLen.toNat then .next (settle s (encodeStep s))
  else if s.ipos = s.inLen then .next (settle s (encodeFinish s))
  else .fault .scanPastEnd

/-- A stream that ends in a repetition marker, `[c, c]` at its end: the literal step of the first byte,
then the marker step, which raises MALFORMED (41_decode.md R134, R135, R137). -/
def truncatedTurn (c : Byte) (s : State) : State :=
  settle s ((literalStep c s).bind markerTurn)

/-- One turn of a running DECODE (41_decode.md R130). While `ipos < N`: a byte that is already a marker
takes the marker step (R133, R135); otherwise the record at the scan index is decoded and run, a whole
record in one turn (10_state.md R39 leaves the granularity open; log 1). At `ipos = N` the operation
completes (R136). Past N no rule applies (log 11). -/
def decodeTurn (s : State) : Host.Outcome State Fault Refusal :=
  if s.ipos.toNat < s.inLen.toNat then
    if s.isMarker s.currentByte then .next (settle s (markerTurn s))
    else
      match decode (.stream s.fetchBytes) with
      | .ok (i, _) => exec i s
      | .error (.truncatedMarker c) => .next (truncatedTurn c s)
      | .error .endOfStream => .next s
  else if s.ipos = s.inLen then .next (completeOk s)
  else .fault .scanPastEnd

/-- A turn of a running DECODE at the spec's own granularity, one byte of the scan (41_decode.md R133 to
R136). The machine does not take it: it is what the record turns are compared with (log 1). -/
def byteDecodeTurn (s : State) : State :=
  if s.op = .dec then
    if s.ipos.toNat < s.inLen.toNat then settle s (byteTurn s) else completeOk s
  else s

/-- One turn of the engine: nothing while no operation runs (10_state.md R33). -/
def engineTurn (s : State) : Host.Outcome State Fault Refusal :=
  match s.op with
  | .none => .next s
  | .enc => encodeTurn s
  | .dec => decodeTurn s

end Sys2Proof.Machine
end

