-- ==== Sys2Proof/Machine/HostPort.lean ====
section
/-! DEFINITION. The host port (20_memory.md R50 to R58): what a read returns and what a write does. A write
of a CMD word is an instruction and goes through `exec` (Machine/Turns.lean). -/

namespace Sys2Proof.Machine

/-! ### The address map -/

def inBase : Nat := 0x40000000
def outBase : Nat := 0x80000000

/-- The ID word: "RLE" and revision 7 (10_state.md R22). -/
def idWord : Word := 0x524C4507#32

/-- The class of an offset (20_memory.md R50). -/
inductive Region where
  /-- The register window, at this offset. -/
  | register (offset : Nat)
  /-- Byte i of the IN window. -/
  | inByte (i : Nat)
  /-- Byte j of the OUT window. -/
  | outByte (j : Nat)
  /-- Every other offset. -/
  | unmapped
deriving DecidableEq, Repr

/-- Where an offset falls, by its first byte (20_memory.md R50; log 10). -/
def State.region (s : State) (offset : Word) : Region :=
  let a := offset.toNat
  if a < 0x1000 then .register a
  else if inBase ≤ a ∧ a < inBase + s.inCap.toNat then .inByte (a - inBase)
  else if outBase ≤ a ∧ a < outBase + s.outCap.toNat then .outByte (a - outBase)
  else .unmapped

/-- A defined register access: 32 bits wide at a multiple of 4 (20_memory.md R51). -/
def registerAccess (width : Width) (a : Nat) : Bool := width == .w32 && a % 4 == 0

/-! ### Reads -/

/-- What the rules say a read returns: one value, or any value. -/
inductive ReadValue where
  | word (v : Word)
  | any
deriving DecidableEq, Repr

/-- A read of a whole register (10_state.md R21 to R31). OUT_LEN and ERR_POS read any value while
BUSY. -/
def readRegister (s : State) (a : Nat) : ReadValue :=
  match a with
  | 0x000 => .word idWord
  | 0x004 => .word 0#32
  | 0x008 => .word s.statusWord
  | 0x00C => .word s.inLen
  | 0x010 => if s.busy then .any else .word s.outLen
  | 0x014 => if s.busy then .any else .word s.errPos
  | 0x018 => .word s.inCap
  | 0x01C => .word s.outCap
  | _ => .word 0#32

/-- A read of one byte of the OUT window (20_memory.md R53). -/
def readOut (s : State) (j : Nat) : ReadValue :=
  if s.outReadable ∧ j < s.outLen.toNat then
    match Memory.get? s.outBuf j with
    | some b => .word (b.setWidth 32)
    | none => .any
  else .any

/-- What the rules say a read at an offset returns (20_memory.md R51 to R54). A byte is zero-extended
to the port's word (log 13). -/
def readPort (s : State) (width : Width) (offset : Word) : ReadValue :=
  match s.region offset with
  | .register a => if registerAccess width a then readRegister s a else .any
  | .inByte i => if width = .w8 then .word ((s.inByte i).setWidth 32) else .any
  | .outByte j => if width = .w8 then readOut s j else .any
  | .unmapped => .word 0#32

/-- The bits a read of a width can return. -/
def truncateTo (width : Width) (w : Word) : Word :=
  match width with
  | .w8 => (w.setWidth 8).setWidth 32
  | .w16 => (w.setWidth 16).setWidth 32
  | .w32 => w

/-- A host read: the value goes to the host, and nothing of the block changes (20_memory.md R58). An
"any value" read is a fresh free draw each time (log 3). -/
def hostRead (width : Width) (offset : Word) (s : State) : State :=
  match readPort s width offset with
  | .word v => { s with responses := v :: s.responses }
  | .any => { s with responses := truncateTo width (s.free 0) :: s.responses, draws := s.draws + 1 }

/-! ### Writes -/

/-- A write of a whole register other than CMD: IN_LEN stores, unless BUSY; every other register
ignores it (10_state.md R21 to R31). -/
def writeRegister (s : State) (a : Nat) (data : Word) : State :=
  match a with
  | 0x00C => if s.busy then s else { s with inLen := data }
  | _ => s

/-- A write to the port other than a command (20_memory.md R51 to R54). -/
def hostWrite (width : Width) (offset : Word) (data : Word) (s : State) : State :=
  match s.region offset with
  | .register a => if registerAccess width a then writeRegister s a data else s
  | .inByte i =>
    if width = .w8 ∧ s.busy = false then
      { s with inBuf := Memory.set s.inBuf i (data.setWidth 8) }
    else s
  | .outByte _ => s
  | .unmapped => s

/-- A CMD write is an aligned 32-bit write to offset 0x004 (42_command.md R160); its data word is the
command. -/
def commandOf : Access → Option Word
  | .write .w32 offset data => if offset = 0x004#32 then some data else none
  | .write .w8 _ _ | .write .w16 _ _ | .read _ _ => none

/-- A host access that is not a command. -/
def hostAccess (a : Access) (s : State) : State :=
  match a with
  | .read width offset => hostRead width offset s
  | .write width offset data => hostWrite width offset data s

end Sys2Proof.Machine
end

