-- ==== Sys2Proof/Machine/Turns.lean ====
section
/-! DEFINITION. One turn of each agent, and how an instruction is placed where the machine takes its next
one. Machine/Step.lean only calls these. -/

namespace Sys2Proof.Machine

/-- One host access: a CMD write runs the command it decodes to (42_command.md R160), any other access
is the port's (20_memory.md R58). -/
def accessTurn (a : Access) (s : State) : Host.Outcome State Fault Refusal :=
  match commandOf a with
  | some w =>
    match decode (.command w) with
    | .ok (i, _) => exec i s
    | .error _ => .next s
  | none => .next (hostAccess a s)

/-- What one event does. -/
def eventTurn (e : Event) (s : State) : Host.Outcome State Fault Refusal :=
  match e with
  | .access a => accessTurn a s
  | .engine => engineTurn s
  | .reset => .next (applyReset s)

/-- The next event: the first still to come; with none left, an engine turn (log 2). -/
def turn (s : State) : Host.Outcome State Fault Refusal :=
  match s.input with
  | [] => engineTurn s
  | e :: rest => eventTurn e (s.withInput rest)

/-- Makes the next event a host write of a CMD word (log 12). -/
def placeCommand (w : Word) (s : State) : State :=
  s.withInput (.access (.write .w32 0x004#32 w) :: s.input)

/-- Makes the next event an engine turn of a DECODE that has just started on these bytes: they stand
at IN[0..), IN_LEN is their number, and the DECODE start has been done (41_decode.md R132; log 12). -/
def placeStream (bytes : List Byte) (s : State) : State :=
  (startDecode { s with inBuf := Memory.setAll s.inBuf 0 bytes,
                        inLen := BitVec.ofNat 32 bytes.length }).withInput (.engine :: s.input)

/-- Places an instruction's bits where the machine takes its next instruction. -/
def placeCode (c : Code) (s : State) : State :=
  match c with
  | .command w => placeCommand w s
  | .stream bytes => placeStream bytes s

end Sys2Proof.Machine
end

