-- ==== Sys2Proof/Machine/Step.lean ====
section
/-! DEFINITION. One step of the machine. -/

namespace Sys2Proof.Machine

/-- One step: one turn of the agent whose turn it is (20_memory.md R59, 42_command.md R165; log 2). -/
def step (s : State) : Host.Outcome State Fault Refusal := turn s

/-- `s` with a table row's instruction placed so that the next step runs it (log 12). -/
def State.withFetchWord (s : State) (nbits w : Nat) : State := placeCode (tableCode nbits w) s

end Sys2Proof.Machine
end

