-- ==== Sys2Proof/Machine/Codec.lean ====
section
/-! DEFINITION. The pure whole-buffer functions of the codec: `record`, `runs`, `enc` (40_encode.md R101 to
R103), `dec` (41_decode.md R138), and both with a bounded output (40_encode.md R107, 41_decode.md R137,
42_command.md R168). Lengths and positions are natural numbers (00_scope.md R13). -/

namespace Sys2Proof.Codec

/-- The bytes a record stands for: one occurrence for a literal, `len + 2` for a run (30_encoding.md R70,
R72). -/
def expand : Instr → List Byte
  | .lit v => [v]
  | .run v len => List.replicate (len.toNat + 2) v
  | .nop _ | .encode _ | .decode _ | .reserved _ => []

/-! ### The encoder's contract -/

/-- The encoding of one chunk of n occurrences of v (40_encode.md R101). -/
def record (v : Byte) (n : Nat) : List Byte :=
  if n = 1 then [v] else [v, v, BitVec.ofNat 8 (n - 2)]

/-- The maximal runs of a sequence (40_encode.md R102). -/
def runs : List Byte → List (Byte × Nat)
  | [] => []
  | b :: bs =>
    match runs bs with
    | [] => [(b, 1)]
    | (v, l) :: rs => if b = v then (v, l + 1) :: rs else (b, 1) :: (v, l) :: rs

/-- The chunks of a run of l occurrences: full ones, then the remainder (40_encode.md R102). -/
def chunks (maxRun l : Nat) : List Nat :=
  List.replicate (l / maxRun) maxRun ++ (if l % maxRun = 0 then [] else [l % maxRun])

/-- `enc` for a given MAX_RUN (40_encode.md R103, 00_scope.md R7). -/
def encWith (maxRun : Nat) (x : List Byte) : List Byte :=
  (runs x).flatMap fun r => (chunks maxRun r.2).flatMap (record r.1)

/-- `enc(x)` of this hardware (40_encode.md R103). -/
def enc (x : List Byte) : List Byte := encWith Config.maxRun x

/-! ### The decoder's contract -/

/-- The result of `dec` (00_scope.md R15). -/
inductive Decoded where
  | ok (out : List Byte)
  | malformed (pos : Nat)
deriving DecidableEq, Repr

/-- The scan of 41_decode.md R133 to R136 from position `pos`, with unbounded output; `out` is what has
been Put. `arm` is DEC_ARM_AFTER_RUN. -/
def decScan (arm : Bool) : (prev : Byte) → (armed : Bool) → (pos : Nat) → (out : List Byte) →
    List Byte → Decoded
  | _, _, _, out, [] => .ok out
  | prev, armed, pos, out, [c] =>
    if armed && c == prev then .malformed pos else .ok (out ++ [c])
  | prev, armed, pos, out, c :: len :: rest =>
    if armed && c == prev then
      decScan arm c arm (pos + 2) (out ++ List.replicate (len.toNat + 1) c) rest
    else decScan arm c true (pos + 1) (out ++ [c]) (len :: rest)

/-- `dec` with DEC_ARM_AFTER_RUN as a parameter (41_decode.md R132, R138, R149). -/
def decWith (arm : Bool) : List Byte → Decoded
  | [] => .ok []
  | b :: bs => decScan arm (Machine.sentinel b) true 0 [] (b :: bs)

/-- `dec(y)` of this hardware (41_decode.md R138). -/
def dec (y : List Byte) : Decoded := decWith Config.decArmAfterRun y

/-! ### Bounded output -/

/-- How an operation over a whole buffer ends (42_command.md R168). -/
inductive Bounded where
  | ok (out : List Byte)
  | malformed (pos : Nat)
  | overflow (pos : Nat)
deriving DecidableEq, Repr

/-- The encoder's single pass over a list with an output of at most `cap` bytes: `chunk` is the open
chunk, `pos` the scan index, `out` what has been Put (40_encode.md R105 to R107). -/
def encScan (maxRun cap : Nat) : (chunk : Option (Byte × Nat)) → (pos : Nat) → (out : List Byte) →
    List Byte → Bounded
  | none, _, out, [] => .ok out
  | some (v, n), pos, out, [] =>
    if out.length + (record v n).length ≤ cap then .ok (out ++ record v n) else .overflow pos
  | none, pos, out, b :: bs => encScan maxRun cap (some (b, 1)) (pos + 1) out bs
  | some (v, n), pos, out, b :: bs =>
    if b = v ∧ n ≠ maxRun then encScan maxRun cap (some (v, n + 1)) (pos + 1) out bs
    else if out.length + (record v n).length ≤ cap then
      encScan maxRun cap (some (b, 1)) (pos + 1) (out ++ record v n) bs
    else .overflow pos

/-- ENCODE of a whole buffer into at most `cap` bytes (42_command.md R168). -/
def encBounded (cap : Nat) (x : List Byte) : Bounded := encScan Config.maxRun cap none 0 [] x

/-- The decoder's scan with an output of at most `cap` bytes. Within a marker step the truncation check
comes first (41_decode.md R137). -/
def decBoundedScan (cap : Nat) : (prev : Byte) → (armed : Bool) → (pos : Nat) → (out : List Byte) →
    List Byte → Bounded
  | _, _, _, out, [] => .ok out
  | prev, armed, pos, out, [c] =>
    if armed && c == prev then .malformed pos
    else if out.length + 1 ≤ cap then .ok (out ++ [c]) else .overflow pos
  | prev, armed, pos, out, c :: len :: rest =>
    if armed && c == prev then
      if out.length + (len.toNat + 1) ≤ cap then
        decBoundedScan cap c Config.decArmAfterRun (pos + 2)
          (out ++ List.replicate (len.toNat + 1) c) rest
      else .overflow pos
    else if out.length + 1 ≤ cap then
      decBoundedScan cap c true (pos + 1) (out ++ [c]) (len :: rest)
    else .overflow pos

/-- DECODE of a whole buffer into at most `cap` bytes (42_command.md R168). -/
def decBounded (cap : Nat) : List Byte → Bounded
  | [] => .ok []
  | b :: bs => decBoundedScan cap (Machine.sentinel b) true 0 [] (b :: bs)

end Sys2Proof.Codec
end

