-- ==== Sys2Proof/Safety.lean ====
section
/-! DEFINITION. What a safe run is: the invariant of the block's state, and what the host sees of a
completed operation. -/

namespace Sys2Proof.Machine

/-- A step that neither faults nor refuses. -/
def Continues (s : State) : Prop := ∃ t, step s = .next t

/-- So many steps of the machine: `Host.Core.run` of it (Laws/Step.lean proves the two equal). -/
def runSteps : Nat → State → Host.Outcome State Fault Refusal
  | 0, s => .next s
  | k + 1, s =>
    match step s with
    | .next t => runSteps k t
    | .fault r => .fault r
    | .refused r => .refused r

/-- The capacities are legal parameters (00_scope.md R9). -/
def State.legalCaps (s : State) : Prop :=
  s.inCap.toNat ≤ 2 ^ 30 ∧ s.outCap.toNat ≤ 2 ^ 30

/-- What no engine turn and no command writes: the constants, IN_LEN, IN, and what the host has read
(10_state.md R26, R32). -/
def SameInput (s t : State) : Prop :=
  t.inCap = s.inCap ∧ t.outCap = s.outCap ∧ t.inLen = s.inLen ∧ t.inBuf = s.inBuf ∧
    t.responses = s.responses ∧ t.resets = s.resets

/-- What every state the block can reach satisfies. -/
structure Inv (s : State) : Prop where
  /-- The capacities are legal (00_scope.md R9). -/
  inCap_le : s.inCap.toNat ≤ 2 ^ 30
  outCap_le : s.outCap.toNat ≤ 2 ^ 30
  /-- An operation runs exactly while BUSY (10_state.md R33). -/
  busy_iff : s.busy = true ↔ s.op ≠ .none
  /-- BUSY and DONE are never both 1 (10_state.md R25). -/
  busy_not_done : s.busy = true → s.done = false
  /-- ERR ≠ 0 implies DONE (10_state.md R25). -/
  err_done : s.err ≠ .noError → s.done = true
  /-- After an error completion OUT_LEN is 0 (60_exceptions.md R205). -/
  err_outLen : s.err ≠ .noError → s.outLen = 0#32
  /-- After a completion without error ERR_POS is 0 (10_state.md R30). -/
  ok_errPos : s.done = true → s.err = .noError → s.errPos = 0#32
  /-- Before the first command OUT_LEN and ERR_POS are 0 (70_reset_and_hazards.md R230). -/
  fresh : s.busy = false → s.done = false → s.outLen = 0#32 ∧ s.errPos = 0#32
  /-- IN's storage is in canonical form, inside IN[0..IN_CAP) (10_state.md R32). -/
  in_wf : Memory.wf s.inBuf = true
  in_bound : ∀ c ∈ s.inBuf, c.1 < s.inCap.toNat
  /-- While an operation runs OUT holds exactly its Puts, in OUT[0..opos) (42_command.md R166). -/
  out_busy : s.busy = true → s.outBuf.map Prod.fst = List.range s.opos.toNat
  opos_le : s.busy = true → s.opos.toNat ≤ s.outCap.toNat
  /-- After a success OUT holds exactly OUT[0..OUT_LEN) (42_command.md R167). -/
  out_done : s.done = true → s.err = .noError → s.outBuf.map Prod.fst = List.range s.outLen.toNat
  outLen_le : s.done = true → s.outLen.toNat ≤ s.outCap.toNat
  /-- Otherwise no byte of OUT holds a stored value (60_exceptions.md R205, 70_reset_and_hazards.md R231). -/
  out_none : s.busy = false → (s.done = false ∨ s.err ≠ .noError) → s.outBuf = []
  /-- The length check was passed at the start (42_command.md R163). -/
  inLen_le : s.busy = true → s.inLen.toNat ≤ s.inCap.toNat
  /-- The scan index is in 0..N (10_state.md R36). -/
  ipos_le : s.busy = true → s.ipos.toNat ≤ s.inLen.toNat
  /-- The encoder has an open chunk once it has read a byte (40_encode.md R104, R105). -/
  enc_open : s.op = .enc → (s.eOpen = true ↔ s.ipos ≠ 0#32)
  /-- A DECODE that runs has input (41_decode.md R132). -/
  dec_nonempty : s.op = .dec → s.inLen ≠ 0#32
  /-- Between turns a DECODE stands at the first byte of a record, which is no marker (41_decode.md
  R139, R140; log 1). -/
  dec_boundary : s.op = .dec → s.ipos.toNat < s.inLen.toNat → s.isMarker s.currentByte = false

/-- What the host sees of a completed command (42_command.md R168): STATUS, OUT_LEN, ERR_POS and the
stored bytes of `OUT[0..OUT_LEN)`. -/
structure HostResult where
  status : Word
  outLen : Word
  errPos : Word
  out : List (Option Byte)
deriving DecidableEq, Repr

def State.result (s : State) : HostResult :=
  ⟨s.statusWord, s.outLen, s.errPos, s.outputSeq⟩

/-- The rows of 42_command.md R168 for an operation that started. -/
def expectedResult : Codec.Bounded → HostResult
  | .ok out => ⟨0x00000002#32, BitVec.ofNat 32 out.length, 0#32, out.map some⟩
  | .malformed p => ⟨0x00000006#32, 0#32, BitVec.ofNat 32 p, []⟩
  | .overflow p => ⟨0x0000000A#32, 0#32, BitVec.ofNat 32 p, []⟩

end Sys2Proof.Machine
end

