-- ==== Sys2Proof/Certificates/Slice0/Obligations.lean ====
section
/-! DEFINITION. The statements for the provers. Each names the rule or section of spec/ it formalises.
Where a statement speaks of a free value it holds for every value of it. -/

open Sys2Proof Sys2Proof.Machine Sys2Proof.Codec

/-! ### Reset and the invariant -/

/-- 70_reset_and_hazards.md R230, R231, R233, R241. Reset, asserted in any state, leaves the block idle with
every register at its reset value; a command that was running is abandoned and does not complete, and
no byte of OUT is readable as a value. Two clauses are the model's choice, not the spec's: that IN[i],
which R231 leaves at any value, is the free value of this reset and index (log 4), and that what the
host has read and the events still to come are kept (log 4). -/
def Obligations.ResetAbandonsTheCommand : Prop :=
  ∀ (s : State) (rest : List Event), s.legalCaps → s.input = .reset :: rest →
    ∃ t, step s = .next t ∧ t.op = .none ∧ t.busy = false ∧ t.done = false ∧ t.err = .noError ∧
      readPort t .w32 0x000#32 = .word 0x524C4507#32 ∧
      readPort t .w32 0x004#32 = .word 0#32 ∧
      readPort t .w32 0x008#32 = .word 0#32 ∧
      readPort t .w32 0x00C#32 = .word 0#32 ∧
      readPort t .w32 0x010#32 = .word 0#32 ∧
      readPort t .w32 0x014#32 = .word 0#32 ∧
      readPort t .w32 0x018#32 = .word s.inCap ∧
      readPort t .w32 0x01C#32 = .word s.outCap ∧
      (∀ i, t.inByte i = Config.freeIn (s.resets + 1) i) ∧
      (∀ j, j < s.outCap.toNat →
        readPort t .w8 (BitVec.ofNat 32 (0x80000000 + j)) = .any) ∧
      t.input = rest ∧ t.responses = s.responses

/-- 10_state.md R33 to R35, 70_reset_and_hazards.md R230. The state right after reset satisfies the
invariant, for every legal capacity. -/
def Obligations.ResetSatisfiesInvariant : Prop :=
  (∀ p : Config.Params, Inv (State.resetWith p)) ∧ Inv State.reset

/-- Every step keeps the invariant, from every state that satisfies it (10_state.md R25, R32, R33, R36,
R37). -/
def Obligations.EveryStepKeepsInvariant : Prop :=
  ∀ s t : State, Inv s → step s = .next t → Inv t

/-- 10_state.md R36, 60_exceptions.md R200. No state that satisfies the invariant faults or refuses: the
scan index never passes N, and no host access raises an error. -/
def Obligations.InvariantStatesContinue : Prop :=
  ∀ s : State, Inv s → Continues s

/-- 70_reset_and_hazards.md R230, 10_state.md R33 to R35: the registers unspecified at reset are never read
before a start sets them. Two idle states that differ only in them take the same step: as long as the
block stays idle they still differ only in them, and when an operation starts, the registers that
operation reads are equal. -/
def Obligations.UnspecifiedRegistersAreNotRead : Prop :=
  ∀ (s : State) (ip op : Word) (o r a : Bool) (v c p : Byte), s.op = .none →
    ∃ t t' : State, step s = .next t ∧
      step { s with ipos := ip, opos := op, eOpen := o, eVal := v, eRep := r, eCnt := c,
                    dPrev := p, dArmed := a } = .next t' ∧
      { t' with ipos := t.ipos, opos := t.opos, eOpen := t.eOpen, eVal := t.eVal, eRep := t.eRep,
                eCnt := t.eCnt, dPrev := t.dPrev, dArmed := t.dArmed } = t ∧
      (t.op ≠ .none → t'.ipos = t.ipos ∧ t'.opos = t.opos) ∧
      (t.op = .enc → t'.eOpen = t.eOpen ∧ t.eOpen = false) ∧
      (t.op = .dec → t'.dPrev = t.dPrev ∧ t'.dArmed = t.dArmed)

/-! ### The registers -/

/-- 10_state.md R24, R25. The STATUS word has the specified fields and zeros above them; BUSY and DONE are
never both 1; ERR ≠ 0 implies DONE = 1; STATUS is 0 after reset and stays 0 until a CMD write that is
not a NOP; and a completed command shows as 0x2 | (code << 2). -/
def Obligations.StatusInvariantsHold : Prop :=
  (∀ s : State, s.statusWord.getLsbD 0 = s.busy ∧ s.statusWord.getLsbD 1 = s.done ∧
    s.statusWord.extractLsb' 2 3 = s.err.code ∧ s.statusWord.extractLsb' 5 27 = 0#27) ∧
  (∀ s : State, Inv s →
    ¬(s.statusWord.getLsbD 0 = true ∧ s.statusWord.getLsbD 1 = true) ∧
    (s.statusWord.extractLsb' 2 3 ≠ 0#3 → s.statusWord.getLsbD 1 = true)) ∧
  (∀ s t : State, s.op = .none → s.statusWord = 0#32 → step s = .next t →
    (∀ w rest, s.input = .access (.write .w32 0x004#32 w) :: rest → w.extractLsb' 0 2 = 0#2) →
    t.op = .none ∧ t.statusWord = 0#32) ∧
  (∀ p : Config.Params, (State.resetWith p).statusWord = 0#32 ∧ (State.resetWith p).op = .none) ∧
  (∀ s : State, s.busy = false → s.done = true →
    s.statusWord = BitVec.ofNat 32 (2 + 4 * s.err.code.toNat))

/-- 10_state.md R22, R28, R29: ID, IN_CAP and OUT_CAP read their constants in every state, a write of any
width to them changes nothing, and no step changes the capacities; after reset they are the
parameters. -/
def Obligations.ConstantRegistersNeverChange : Prop :=
  (∀ s : State, readPort s .w32 0x000#32 = .word 0x524C4507#32 ∧
    readPort s .w32 0x018#32 = .word s.inCap ∧ readPort s .w32 0x01C#32 = .word s.outCap) ∧
  (∀ (s : State) (w : Width) (a d : Word) (rest : List Event),
    a = 0x000#32 ∨ a = 0x018#32 ∨ a = 0x01C#32 →
    s.input = .access (.write w a d) :: rest → step s = .next (s.withInput rest)) ∧
  (∀ s t : State, step s = .next t → t.inCap = s.inCap ∧ t.outCap = s.outCap) ∧
  (∀ p : Config.Params, (State.resetWith p).inCap.toNat = p.inCap.val ∧
    (State.resetWith p).outCap.toNat = p.outCap.val)

/-- 10_state.md R31: every aligned 32-bit read of a reserved offset returns 0, every write to one is
ignored, and neither has a side effect in the block. -/
def Obligations.ReservedOffsetsReadZero : Prop :=
  ∀ (s : State) (a : Word), 0x020 ≤ a.toNat → a.toNat ≤ 0xFFC → a.toNat % 4 = 0 →
    readPort s .w32 a = .word 0#32 ∧
    (∀ (w : Width) (d : Word) (rest : List Event), s.input = .access (.write w a d) :: rest →
      step s = .next (s.withInput rest)) ∧
    (∀ rest : List Event, s.input = .access (.read .w32 a) :: rest →
      step s = .next { s.withInput rest with responses := 0#32 :: s.responses })

/-- 20_memory.md R51, with the map of 10_state.md R21: an aligned 32-bit access reads the whole register of
that offset (OUT_LEN and ERR_POS any value while BUSY), or writes it: CMD runs the command, IN_LEN
stores the word, and the others ignore the write. An access of another width or alignment in the
register window reads any value, writes nothing and starts no command. -/
def Obligations.RegisterWindowAccesses : Prop :=
  (∀ s : State,
    readPort s .w32 0x000#32 = .word 0x524C4507#32 ∧
    readPort s .w32 0x004#32 = .word 0#32 ∧
    readPort s .w32 0x008#32 = .word s.statusWord ∧
    readPort s .w32 0x00C#32 = .word s.inLen ∧
    readPort s .w32 0x010#32 = (if s.busy then .any else .word s.outLen) ∧
    readPort s .w32 0x014#32 = (if s.busy then .any else .word s.errPos) ∧
    readPort s .w32 0x018#32 = .word s.inCap ∧
    readPort s .w32 0x01C#32 = .word s.outCap ∧
    (∀ a : Word, 0x020 ≤ a.toNat → a.toNat ≤ 0xFFC → a.toNat % 4 = 0 →
      readPort s .w32 a = .word 0#32)) ∧
  (∀ (s : State) (a d : Word) (rest : List Event), a.toNat ≤ 0xFFC → a.toNat % 4 = 0 →
    s.input = .access (.write .w32 a d) :: rest →
    (a = 0x004#32 → step s = exec (decodeCommand d) (s.withInput rest)) ∧
    (a = 0x00C#32 → s.busy = false → step s = .next { s.withInput rest with inLen := d }) ∧
    (a ≠ 0x004#32 → a ≠ 0x00C#32 → step s = .next (s.withInput rest))) ∧
  (∀ (s : State) (w : Width) (a d : Word) (rest : List Event), a.toNat ≤ 0xFFF →
    (w ≠ .w32 ∨ a.toNat % 4 ≠ 0) →
    readPort s w a = .any ∧
    (s.input = .access (.write w a d) :: rest → step s = .next (s.withInput rest)))

/-- 10_state.md R26. IN_LEN: every value can be written while idle and reads back unchanged; a write while
BUSY is ignored; nothing but such a write and reset changes it; its reset value is 0. -/
def Obligations.InLenHoldsWhatIsWritten : Prop :=
  (∀ (s : State) (v : Word) (rest : List Event),
    s.input = .access (.write .w32 0x00C#32 v) :: rest →
    (s.busy = false → step s = .next { s.withInput rest with inLen := v } ∧
      readPort { s.withInput rest with inLen := v } .w32 0x00C#32 = .word v) ∧
    (s.busy = true → step s = .next (s.withInput rest))) ∧
  (∀ s t : State, step s = .next t → t.inLen ≠ s.inLen →
    (∃ rest, s.input = .reset :: rest) ∨
    (s.busy = false ∧ ∃ rest, s.input = .access (.write .w32 0x00C#32 t.inLen) :: rest)) ∧
  (∀ p : Config.Params, (State.resetWith p).inLen = 0#32)

/-! ### The host port -/

/-- 20_memory.md R52: the IN window. A byte read returns IN[i] at every time; a byte write stores in IN[i]
when idle, changes no other byte and nothing else of the block, and is ignored while BUSY; wider
reads return any value and wider writes are ignored. -/
def Obligations.InWindowAccesses : Prop :=
  ∀ (s : State) (i : Nat), s.legalCaps → i < s.inCap.toNat →
    readPort s .w8 (BitVec.ofNat 32 (0x40000000 + i)) = .word ((s.inByte i).setWidth 32) ∧
    readPort s .w16 (BitVec.ofNat 32 (0x40000000 + i)) = .any ∧
    readPort s .w32 (BitVec.ofNat 32 (0x40000000 + i)) = .any ∧
    (∀ (w : Width) (d : Word) (rest : List Event),
      s.input = .access (.write w (BitVec.ofNat 32 (0x40000000 + i)) d) :: rest →
      (w = .w8 → s.busy = false → ∃ t, step s = .next t ∧ t.inByte i = d.setWidth 8 ∧
        (∀ k, k ≠ i → t.inByte k = s.inByte k) ∧ { t with inBuf := s.inBuf } = s.withInput rest) ∧
      ((w ≠ .w8 ∨ s.busy = true) → step s = .next (s.withInput rest)))

/-- 20_memory.md R53: the OUT window. A byte read returns OUT[j] only after a completion without error and
below OUT_LEN, and any value in every other case; wider reads return any value; every write is
ignored. -/
def Obligations.OutWindowAccesses : Prop :=
  ∀ (s : State) (j : Nat), Inv s → j < s.outCap.toNat →
    (s.busy = false → s.done = true → s.err = .noError → j < s.outLen.toNat →
      ∃ b, Memory.get? s.outBuf j = some b ∧
        readPort s .w8 (BitVec.ofNat 32 (0x80000000 + j)) = .word (b.setWidth 32)) ∧
    ((s.busy = true ∨ s.done = false ∨ s.err ≠ .noError ∨ s.outLen.toNat ≤ j) →
      readPort s .w8 (BitVec.ofNat 32 (0x80000000 + j)) = .any) ∧
    readPort s .w16 (BitVec.ofNat 32 (0x80000000 + j)) = .any ∧
    readPort s .w32 (BitVec.ofNat 32 (0x80000000 + j)) = .any ∧
    (∀ (w : Width) (d : Word) (rest : List Event),
      s.input = .access (.write w (BitVec.ofNat 32 (0x80000000 + j)) d) :: rest →
      step s = .next (s.withInput rest))

/-- 20_memory.md R54: an offset outside the three windows reads 0 at every width and ignores writes; there
is no bus error: the step of either access answers a next state. The statement classifies an access by
the offset of its first byte alone, as the model does: for a 16-bit or 32-bit access that begins in
unmapped space just below a window and reaches into it, that is the model's reading, not the spec's
words (log 10). -/
def Obligations.UnmappedOffsetsReadZero : Prop :=
  ∀ (s : State) (a : Word), 0x1000 ≤ a.toNat →
    ¬(0x40000000 ≤ a.toNat ∧ a.toNat < 0x40000000 + s.inCap.toNat) →
    ¬(0x80000000 ≤ a.toNat ∧ a.toNat < 0x80000000 + s.outCap.toNat) →
    ∀ w : Width, readPort s w a = .word 0#32 ∧
      (∀ rest : List Event, s.input = .access (.read w a) :: rest →
        step s = .next { s.withInput rest with responses := 0#32 :: s.responses }) ∧
      (∀ (d : Word) (rest : List Event), s.input = .access (.write w a d) :: rest →
        step s = .next (s.withInput rest))

/-- 20_memory.md R58: a host read has no side effect in the block. Only the responses (and, for an
any-value read, the free-value counter) change; a read that returns a value returns the same value
again, whatever was read between and whatever engine turns passed, as long as nothing completed. A
write other than a command only stores: it changes nothing but IN_LEN and IN. -/
def Obligations.ReadsHaveNoSideEffect : Prop :=
  (∀ (s : State) (w : Width) (a : Word) (rest : List Event),
    s.input = .access (.read w a) :: rest →
    ∃ t v, step s = .next t ∧ t.responses = v :: s.responses ∧ t.input = rest ∧
      { t with input := s.input, responses := s.responses, draws := s.draws } = s ∧
      (∀ u, readPort s w a = .word u → v = u ∧ t.draws = s.draws) ∧
      (∀ (w' : Width) (a' : Word), readPort t w' a' = readPort s w' a')) ∧
  (∀ s t : State, Inv s → engineTurn s = .next t → t.op = s.op →
    ∀ (w : Width) (a : Word), readPort t w a = readPort s w a) ∧
  (∀ (s : State) (w : Width) (a d : Word) (rest : List Event), (w ≠ .w32 ∨ a ≠ 0x004#32) →
    s.input = .access (.write w a d) :: rest →
    ∃ t, step s = .next t ∧ { t with inLen := s.inLen, inBuf := s.inBuf } = s.withInput rest)

/-- 42_command.md R169: while BUSY every write to the port has no effect at all, whatever its width,
offset and data; a CMD write is not queued. -/
def Obligations.WritesWhileBusyAreIgnored : Prop :=
  ∀ (s : State) (w : Width) (a d : Word) (rest : List Event), s.busy = true →
    s.input = .access (.write w a d) :: rest → step s = .next (s.withInput rest)

/-- 20_memory.md R60, 60_exceptions.md R216: a completed result stays. Only a CMD write that is not a NOP,
or reset, changes STATUS, OUT_LEN, ERR_POS or what the OUT window holds once BUSY = 0. -/
def Obligations.CompletedResultStays : Prop :=
  ∀ s t : State, s.op = .none → step s = .next t →
    (∀ rest, s.input ≠ .reset :: rest) →
    (∀ w rest, s.input = .access (.write .w32 0x004#32 w) :: rest → w.extractLsb' 0 2 = 0#2) →
    t.result = s.result ∧ t.outBuf = s.outBuf ∧ t.op = .none

/-! ### Decoding and encoding -/

/-- Words and bytes written out from 30_encoding.md R70, R74, R75 decode to the instructions they stand
for. -/
def Obligations.WrittenWordsDecode : Prop :=
  decodeCommand 0b00000000000000000000000000000000#32 = .nop 0#30 ∧
  decodeCommand 0b00000000000000000000000000000001#32 = .encode 0#30 ∧
  decodeCommand 0b00000000000000000000000000000110#32 = .decode 1#30 ∧
  decodeCommand 0b11111111111111111111111111111111#32 = .reserved 0x3FFFFFFF#30 ∧
  decodeRecord [0x5A#8] = .ok (.lit 0x5A#8, []) ∧
  decodeRecord [0x05#8, 0x05#8, 0x03#8] = .ok (.run 0x05#8 0x03#8, []) ∧
  decodeRecord [0x05#8, 0x05#8] = .error (.truncatedMarker 0x05#8)

/-- 30_encoding.md R70, R75: decoding the encoding of an instruction gives it back, every operand at every
value. -/
def Obligations.DecodeInvertsEncode : Prop :=
  ∀ i : Instr, decode (encode i) = .ok (i, [])

/-- 30_encoding.md R75, R77: OP = CMD[1:0] alone selects the command, and a command behaves as its OP
alone: bits 31..2 have no effect. -/
def Obligations.CommandIgnoresHighBits : Prop :=
  ∀ (w : Word) (s : State),
    exec (decodeCommand w) s = exec (decodeCommand (w &&& 3#32)) s ∧
    (w.extractLsb' 0 2 = 0#2 → ∃ g, decodeCommand w = .nop g) ∧
    (w.extractLsb' 0 2 = 1#2 → ∃ g, decodeCommand w = .encode g) ∧
    (w.extractLsb' 0 2 = 2#2 → ∃ g, decodeCommand w = .decode g) ∧
    (w.extractLsb' 0 2 = 3#2 → ∃ g, decodeCommand w = .reserved g)

/-- 30_encoding.md R70, R71: the bytes of every well-formed sequence of records split into exactly those
records. -/
def Obligations.StreamDecodesToItsRecords : Prop :=
  ∀ records : List Instr, Stream.wellFormed records = true →
    decodeStream (encodeStream records) = .ok records

/-- 30_encoding.md R70, R73: the other direction. A stream that splits into records consists of exactly
their bytes, and the records are well-formed; and the only streams that do not split are those that
end with a repetition marker, which are the malformed ones of `dec`. -/
def Obligations.StreamsParseUniquely : Prop :=
  (∀ (bytes : List Byte) (records : List Instr), decodeStream bytes = .ok records →
    encodeStream records = bytes ∧ Stream.wellFormed records = true) ∧
  (∀ bytes : List Byte, (∃ e, decodeStream bytes = .error e) ↔ ∃ p, dec bytes = .malformed p)

/-- 30_encoding.md R72, R70: each record stands for its run: one occurrence for a literal, zext(L) + 2 for
a run record. Decoding a stream of records gives what they stand for, in order. For n in 2..257 the
encoder's length byte is n - 2, which does not wrap. -/
def Obligations.RecordsStandForTheirRuns : Prop :=
  (∀ records : List Instr, Stream.wellFormed records = true →
    dec (encodeStream records) = .ok (records.flatMap expand)) ∧
  (∀ (v len : Byte), expand (.run v len) = List.replicate (len.toNat + 2) v) ∧
  (∀ (v : Byte) (n : Nat), 2 ≤ n → n ≤ 257 →
    record v n = [v, v, BitVec.ofNat 8 (n - 2)] ∧ (BitVec.ofNat 8 (n - 2)).toNat + 2 = n)

/-! ### One step runs the decoded instruction -/

/-- 42_command.md R160, 41_decode.md R130, R133. A CMD write runs the command its word decodes to. An
engine turn of a running DECODE, below N and not at a marker, runs the record that the next input bytes
decode to; the bytes it decodes are the input from the scan index on, at most three (log 1). Both in
the state with the event taken. -/
def Obligations.StepRunsTheDecodedInstruction : Prop :=
  (∀ (s : State) (w : Word) (rest : List Event),
    s.input = .access (.write .w32 0x004#32 w) :: rest →
    step s = exec (decodeCommand w) (s.withInput rest)) ∧
  (∀ (s : State) (i : Instr) (rest : List Byte), s.op = .dec →
    s.ipos.toNat < s.inLen.toNat → s.isMarker s.currentByte = false →
    decodeRecord ((s.inputSeq.drop s.ipos.toNat).take 3) = .ok (i, rest) →
    (s.input = [] → step s = exec i s) ∧
    (∀ events, s.input = .engine :: events → step s = exec i (s.withInput events)))

/-- A word of the opcode table, placed with `withFetchWord`, is the instruction the next step runs
(log 12, log 14). -/
def Obligations.FetchWordIsRunNext : Prop :=
  ∀ (s : State) (nbits w : Nat) (i : Instr), nbits ≤ 32 → decodeTableWord nbits w = some i →
    step (s.withFetchWord nbits w) = exec i ((s.withFetchWord nbits w).withInput s.input)

/-! ### The commands -/

/-- 42_command.md R161: a NOP changes no state, idle or BUSY. -/
def Obligations.NopChangesNothing : Prop :=
  ∀ (ignored : BitVec 30) (s : State), exec (.nop ignored) s = .next s

/-- 42_command.md R162, 60_exceptions.md R203: the reserved command completes at once with BADCMD: STATUS
= 0x0000000E, OUT_LEN = 0, ERR_POS = 0, no BUSY phase, whatever bits 31..2 are. IN, IN_LEN and the
capacities are unchanged, and no byte of OUT is readable as a value. -/
def Obligations.ReservedCommandIsBadCmd : Prop :=
  ∀ (ignored : BitVec 30) (s : State), s.busy = false →
    ∃ t, exec (.reserved ignored) s = .next t ∧ t.statusWord = 0x0000000E#32 ∧
      t.busy = false ∧ t.done = true ∧ t.err = .badCmd ∧
      t.outLen = 0#32 ∧ t.errPos = 0#32 ∧ t.op = .none ∧ SameInput s t ∧ t.input = s.input ∧
      (∀ j, readOut t j = .any)

/-- 40_encode.md R104, 42_command.md R164: an ENCODE with BUSY = 0 and IN_LEN ≤ IN_CAP starts: STATUS =
0x00000001, op = ENC, both counters 0, no chunk open. OUT_LEN, ERR_POS and OUT read as any value. IN,
IN_LEN, the capacities and the registers the start does not name are unchanged. -/
def Obligations.EncodeStarts : Prop :=
  ∀ (ignored : BitVec 30) (s : State), s.busy = false → s.inLen.toNat ≤ s.inCap.toNat →
    ∃ t, exec (.encode ignored) s = .next t ∧ t.statusWord = 0x00000001#32 ∧
      t.busy = true ∧ t.done = false ∧ t.err = .noError ∧ t.op = .enc ∧
      t.ipos = 0#32 ∧ t.opos = 0#32 ∧ t.eOpen = false ∧
      SameInput s t ∧ t.input = s.input ∧
      t.eVal = s.eVal ∧ t.eRep = s.eRep ∧ t.eCnt = s.eCnt ∧ t.dPrev = s.dPrev ∧ t.dArmed = s.dArmed ∧
      readPort t .w32 0x010#32 = .any ∧ readPort t .w32 0x014#32 = .any ∧ (∀ j, readOut t j = .any)

/-- 41_decode.md R132, 42_command.md R164: a DECODE with BUSY = 0 and IN_LEN ≤ IN_CAP. With N = 0 it
completes OK at once, OUT_LEN = 0. Otherwise it starts: STATUS = 0x00000001, op = DEC, both counters 0,
d_prev = sentinel(IN[0]), d_armed = 1. IN, IN_LEN, the capacities and the registers the start does not
name are unchanged. -/
def Obligations.DecodeStarts : Prop :=
  ∀ (ignored : BitVec 30) (s : State), s.busy = false → s.inLen.toNat ≤ s.inCap.toNat →
    ∃ t, exec (.decode ignored) s = .next t ∧ SameInput s t ∧ t.input = s.input ∧
      t.ipos = 0#32 ∧ t.opos = 0#32 ∧
      t.eOpen = s.eOpen ∧ t.eVal = s.eVal ∧ t.eRep = s.eRep ∧ t.eCnt = s.eCnt ∧
      (s.inLen = 0#32 → t.result = ⟨0x00000002#32, 0#32, 0#32, []⟩ ∧ t.op = .none ∧ t.busy = false ∧
        t.dPrev = s.dPrev ∧ t.dArmed = s.dArmed) ∧
      (s.inLen ≠ 0#32 → t.statusWord = 0x00000001#32 ∧ t.busy = true ∧ t.done = false ∧
        t.err = .noError ∧ t.op = .dec ∧
        t.dPrev = sentinel (s.inByte 0) ∧ t.dArmed = true ∧
        readPort t .w32 0x010#32 = .any ∧ readPort t .w32 0x014#32 = .any ∧ (∀ j, readOut t j = .any))

/-- 42_command.md R163: with IN_LEN > IN_CAP, ENCODE and DECODE raise BADLEN(0) at once (STATUS =
0x00000012), without a BUSY phase and without reading IN: with other bytes in IN the outcome is the
same. IN_LEN = IN_CAP is accepted. -/
def Obligations.LengthAboveCapacityIsBadLen : Prop :=
  ∀ (i : Instr) (s : State), (∃ g, i = .encode g) ∨ (∃ g, i = .decode g) → s.busy = false →
    (s.inCap.toNat < s.inLen.toNat →
      ∃ t, exec i s = .next t ∧ t.statusWord = 0x00000012#32 ∧ t.busy = false ∧ t.done = true ∧
        t.err = .badLen ∧ t.outLen = 0#32 ∧ t.errPos = 0#32 ∧ t.op = .none ∧
        SameInput s t ∧ t.input = s.input ∧ (∀ j, readOut t j = .any) ∧
        ∀ m : List Host.Cell, exec i { s with inBuf := m } = .next { t with inBuf := m }) ∧
    (s.inLen = s.inCap → ∃ t, exec i s = .next t ∧ t.err = .noError)

/-- 42_command.md R160, 60_exceptions.md R207: the checks of a CMD write, in their order: BUSY (no effect),
NOP, BADCMD, BADLEN, start. A DECODE of an empty input completes at its start. -/
def Obligations.CommandChecksInOrder : Prop :=
  ∀ (s : State) (w : Word) (rest : List Event),
    s.input = .access (.write .w32 0x004#32 w) :: rest →
    ∃ t, step s = .next t ∧
      (s.busy = true → t = s.withInput rest) ∧
      (s.busy = false → w.extractLsb' 0 2 = 0#2 → t = s.withInput rest) ∧
      (s.busy = false → w.extractLsb' 0 2 = 3#2 →
        t.statusWord = 0x0000000E#32 ∧ t.errPos = 0#32 ∧ t.outLen = 0#32 ∧ t.op = .none) ∧
      (s.busy = false → (w.extractLsb' 0 2 = 1#2 ∨ w.extractLsb' 0 2 = 2#2) →
        s.inCap.toNat < s.inLen.toNat →
        t.statusWord = 0x00000012#32 ∧ t.errPos = 0#32 ∧ t.outLen = 0#32 ∧ t.op = .none) ∧
      (s.busy = false → w.extractLsb' 0 2 = 1#2 → s.inLen.toNat ≤ s.inCap.toNat →
        t.statusWord = 0x00000001#32 ∧ t.op = .enc) ∧
      (s.busy = false → w.extractLsb' 0 2 = 2#2 → s.inLen.toNat ≤ s.inCap.toNat → s.inLen ≠ 0#32 →
        t.statusWord = 0x00000001#32 ∧ t.op = .dec) ∧
      (s.busy = false → w.extractLsb' 0 2 = 2#2 → s.inLen = 0#32 →
        t.statusWord = 0x00000002#32 ∧ t.outLen = 0#32 ∧ t.op = .none)

/-- 60_exceptions.md R205: whatever step raises an error, it is an error completion. BUSY = 0, DONE = 1,
STATUS = 0x2 | (code << 2), OUT_LEN = 0, op = NONE, no byte of OUT is readable as a value, IN and
IN_LEN are unchanged. -/
def Obligations.EveryErrorIsAnErrorCompletion : Prop :=
  ∀ s t : State, step s = .next t → s.err = .noError → t.err ≠ .noError →
    t.busy = false ∧ t.done = true ∧ t.statusWord = BitVec.ofNat 32 (2 + 4 * t.err.code.toNat) ∧
      t.outLen = 0#32 ∧ t.op = .none ∧ (∀ j, readOut t j = .any) ∧ SameInput s t

/-! ### The stream records -/

/-- 41_decode.md R134: the literal step. Below capacity the byte is Put at OUT[opos], d_prev is the byte,
d_armed = 1, ipos and opos advance by 1, and nothing else changes, no other byte of OUT included. At
opos = OUT_CAP it raises OVERFLOW(ipos). -/
def Obligations.LiteralRecordEffect : Prop :=
  ∀ (v : Byte) (s : State),
    (s.opos ≠ s.outCap →
      ∃ t, exec (.lit v) s = .next t ∧ Memory.get? t.outBuf s.opos.toNat = some v ∧
        (∀ j, j ≠ s.opos.toNat → Memory.get? t.outBuf j = Memory.get? s.outBuf j) ∧
        t.opos = s.opos + 1#32 ∧ t.ipos = s.ipos + 1#32 ∧ t.dPrev = v ∧ t.dArmed = true ∧
        { t with outBuf := s.outBuf, opos := s.opos, ipos := s.ipos, dPrev := s.dPrev,
                 dArmed := s.dArmed } = s) ∧
    (s.opos = s.outCap →
      ∃ t, exec (.lit v) s = .next t ∧ t.statusWord = 0x0000000A#32 ∧ t.errPos = s.ipos ∧
        t.outLen = 0#32 ∧ t.op = .none ∧ SameInput s t ∧ t.input = s.input ∧ (∀ j, readOut t j = .any))

/-- 41_decode.md R134, R135, 30_encoding.md R72: a run record that fits Puts len + 2 copies of v at
OUT[opos..opos+len+2), leaves every other byte of OUT alone, consumes three bytes, and leaves the
decoder with d_prev = v and not armed; nothing else changes. -/
def Obligations.RunRecordEffect : Prop :=
  ∀ (v len : Byte) (s : State), s.opos.toNat + (len.toNat + 2) ≤ s.outCap.toNat →
    ∃ t, exec (.run v len) s = .next t ∧
      (∀ j, Memory.get? t.outBuf j =
        if s.opos.toNat ≤ j ∧ j < s.opos.toNat + (len.toNat + 2) then some v
        else Memory.get? s.outBuf j) ∧
      t.opos.toNat = s.opos.toNat + (len.toNat + 2) ∧ t.ipos = s.ipos + 3#32 ∧
      t.dPrev = v ∧ t.dArmed = false ∧
      { t with outBuf := s.outBuf, opos := s.opos, ipos := s.ipos, dPrev := s.dPrev,
               dArmed := s.dArmed } = s

/-- 41_decode.md R137, 60_exceptions.md R202: a run record that does not fit raises OVERFLOW with the index
of the byte whose step overflowed: the literal byte when nothing fits, else the marker byte. The output
is discarded. -/
def Obligations.RunRecordOverflow : Prop :=
  ∀ (v len : Byte) (s : State), s.opos.toNat ≤ s.outCap.toNat →
    s.outCap.toNat < s.opos.toNat + (len.toNat + 2) →
    ∃ t, exec (.run v len) s = .next t ∧ t.statusWord = 0x0000000A#32 ∧
      t.errPos = (if s.opos = s.outCap then s.ipos else s.ipos + 1#32) ∧
      t.outLen = 0#32 ∧ t.op = .none ∧ SameInput s t ∧ t.input = s.input ∧ (∀ j, readOut t j = .any)

/-- 41_decode.md R133, R134, R135: the marker step at the spec's own granularity, one byte of the scan
(`byteDecodeTurn`; the machine's own turns take whole records: log 1). A running DECODE at a record
boundary whose next byte is equal to the one at the scan index, with room for one byte, comes by its
literal step to a marker: op = DEC, ipos < N, d_armed = 1 and IN[ipos] = d_prev. From every state at a
marker the next byte turn is the marker step: at the last byte it raises MALFORMED(ipos) and Puts
nothing; otherwise, with L = IN[ipos + 1], it Puts L + 1 copies of the byte, disarms, advances by 2
and changes nothing else, or raises OVERFLOW(ipos). The machine's one turn from the boundary (log 1)
ends in the same state as these two byte turns. -/
def Obligations.MarkerStepEffect : Prop :=
  (∀ s : State, Inv s → s.op = .dec → s.ipos.toNat + 1 < s.inLen.toNat →
    s.inByte (s.ipos.toNat + 1) = s.inByte s.ipos.toNat → s.opos ≠ s.outCap →
    let m := byteDecodeTurn s
    m.op = .dec ∧ m.ipos.toNat = s.ipos.toNat + 1 ∧ m.ipos.toNat < m.inLen.toNat ∧
      m.opos.toNat = s.opos.toNat + 1 ∧ m.opos.toNat ≤ m.outCap.toNat ∧
      m.dArmed = true ∧ m.inByte m.ipos.toNat = m.dPrev ∧ SameInput s m ∧
      (s.input = [] → step s = .next (byteDecodeTurn m))) ∧
  (∀ m : State, m.op = .dec → m.ipos.toNat < m.inLen.toNat → m.opos.toNat ≤ m.outCap.toNat →
    m.dArmed = true → m.inByte m.ipos.toNat = m.dPrev →
    let t := byteDecodeTurn m
    SameInput m t ∧ t.input = m.input ∧
      (m.ipos.toNat + 1 = m.inLen.toNat →
        t.statusWord = 0x00000006#32 ∧ t.errPos = m.ipos ∧ t.outLen = 0#32 ∧ t.op = .none ∧
        (∀ j, readOut t j = .any)) ∧
      (m.ipos.toNat + 1 ≠ m.inLen.toNat →
        m.opos.toNat + ((m.inByte (m.ipos.toNat + 1)).toNat + 1) ≤ m.outCap.toNat →
        (∀ j, Memory.get? t.outBuf j =
          if m.opos.toNat ≤ j ∧ j < m.opos.toNat + ((m.inByte (m.ipos.toNat + 1)).toNat + 1)
          then some m.dPrev else Memory.get? m.outBuf j) ∧
        t.opos.toNat = m.opos.toNat + ((m.inByte (m.ipos.toNat + 1)).toNat + 1) ∧
        t.ipos.toNat = m.ipos.toNat + 2 ∧ t.dArmed = false ∧
        { t with outBuf := m.outBuf, opos := m.opos, ipos := m.ipos, dArmed := m.dArmed } = m) ∧
      (m.ipos.toNat + 1 ≠ m.inLen.toNat →
        m.outCap.toNat < m.opos.toNat + ((m.inByte (m.ipos.toNat + 1)).toNat + 1) →
        t.statusWord = 0x0000000A#32 ∧ t.errPos = m.ipos ∧ t.outLen = 0#32 ∧ t.op = .none ∧
        (∀ j, readOut t j = .any)))

/-- 60_exceptions.md R201, 41_decode.md R137: a DECODE whose last two bytes are an equal pair at a record
boundary. The literal step of the first comes before the truncation check of the second: OVERFLOW at
the first if nothing fits, else MALFORMED with ERR_POS = N - 1. That ONE step of the machine does both is
the model's choice (log 1): R134 and R135 take two. -/
def Obligations.TruncatedMarkerIsMalformed : Prop :=
  ∀ s : State, s.op = .dec → s.input = [] → s.ipos.toNat + 2 = s.inLen.toNat →
    s.opos.toNat ≤ s.outCap.toNat → s.isMarker s.currentByte = false →
    s.inByte s.ipos.toNat = s.inByte (s.ipos.toNat + 1) →
    ∃ t, step s = .next t ∧ t.outLen = 0#32 ∧ t.op = .none ∧ SameInput s t ∧
      (s.opos ≠ s.outCap → t.statusWord = 0x00000006#32 ∧ t.errPos.toNat = s.inLen.toNat - 1) ∧
      (s.opos = s.outCap → t.statusWord = 0x0000000A#32 ∧ t.errPos = s.ipos)

/-- 41_decode.md R136, 42_command.md R167: at ipos = N a DECODE completes OK with OUT_LEN = opos and
ERR_POS = 0; STATUS = 0x00000002. Nothing else changes. -/
def Obligations.DecodeFinishCompletes : Prop :=
  ∀ s : State, s.op = .dec → s.input = [] → s.ipos = s.inLen →
    ∃ t, step s = .next t ∧ t.statusWord = 0x00000002#32 ∧ t.outLen = s.opos ∧ t.errPos = 0#32 ∧
      t.op = .none ∧
      { t with busy := s.busy, done := s.done, err := s.err, outLen := s.outLen, errPos := s.errPos,
               op := s.op } = s

/-- 41_decode.md R131: the sentinel. -/
def Obligations.SentinelDiffersFromItsByte : Prop :=
  (∀ b : Byte, b ≠ 0xFF#8 → sentinel b = b + 1#8) ∧ sentinel 0xFF#8 = 0xFE#8 ∧
    (∀ b : Byte, sentinel b ≠ b) ∧ sentinel 0x00#8 = 0x01#8

/-- 41_decode.md R139, R140: the first byte of a DECODE is never a marker; after a run record no byte is a
marker; right after a literal step exactly the same byte is. -/
def Obligations.NeverAMarkerAtARecordBoundary : Prop :=
  (∀ (g : BitVec 30) (s : State), s.busy = false → s.inLen.toNat ≤ s.inCap.toNat → s.inLen ≠ 0#32 →
    ∃ t, exec (.decode g) s = .next t ∧ t.isMarker t.currentByte = false) ∧
  (∀ (v len : Byte) (s : State), s.opos.toNat + (len.toNat + 2) ≤ s.outCap.toNat →
    ∃ t, exec (.run v len) s = .next t ∧ ∀ c, t.isMarker c = false) ∧
  (∀ (v : Byte) (s : State), s.opos ≠ s.outCap →
    ∃ t, exec (.lit v) s = .next t ∧ ∀ c, t.isMarker c = true ↔ c = v)

/-! ### The encoder's steps -/

/-- 40_encode.md R105, R107: one ENCODE step below N, with b = IN[ipos]. It opens the first chunk; or
counts b in the open chunk; or writes the chunk's record and opens a chunk of b; ipos advances by 1.
If the record does not fit it raises OVERFLOW(ipos). The registers and bytes named are the only ones
that change. -/
def Obligations.EncodeStepEffect : Prop :=
  ∀ s : State, s.op = .enc → s.input = [] → s.ipos.toNat < s.inLen.toNat →
    s.opos.toNat ≤ s.outCap.toNat →
    let b := s.inByte s.ipos.toNat
    ∃ t, step s = .next t ∧ SameInput s t ∧
      (s.eOpen = false →
        t = { s with eOpen := true, eVal := b, eRep := false, eCnt := 0#8, ipos := s.ipos + 1#32 }) ∧
      (s.eOpen = true → b = s.eVal → s.eRep = false →
        t = { s with eRep := true, eCnt := 0#8, ipos := s.ipos + 1#32 }) ∧
      (s.eOpen = true → b = s.eVal → s.eRep = true → s.eCnt ≠ 0xFF#8 →
        t = { s with eCnt := s.eCnt + 1#8, ipos := s.ipos + 1#32 }) ∧
      (s.eOpen = true → (b ≠ s.eVal ∨ (s.eRep = true ∧ s.eCnt = 0xFF#8)) →
        let out := if s.eRep then [s.eVal, s.eVal, s.eCnt] else [s.eVal]
        (s.opos.toNat + out.length ≤ s.outCap.toNat →
          (∀ j, Memory.get? t.outBuf j =
            if s.opos.toNat ≤ j ∧ j < s.opos.toNat + out.length then out[j - s.opos.toNat]?
            else Memory.get? s.outBuf j) ∧
          t.opos.toNat = s.opos.toNat + out.length ∧
          { t with outBuf := s.outBuf, opos := s.opos } =
            { s with eVal := b, eRep := false, eCnt := 0#8, ipos := s.ipos + 1#32 }) ∧
        (s.outCap.toNat < s.opos.toNat + out.length →
          t.statusWord = 0x0000000A#32 ∧ t.errPos = s.ipos ∧ t.outLen = 0#32 ∧ t.op = .none))

/-- 40_encode.md R106, R107: the ENCODE finish at ipos = N writes the open chunk's record, if there is
one, and completes OK with OUT_LEN the number of bytes Put; if the record does not fit it raises
OVERFLOW(N). -/
def Obligations.EncodeFinishEffect : Prop :=
  ∀ s : State, s.op = .enc → s.input = [] → s.ipos = s.inLen → s.opos.toNat ≤ s.outCap.toNat →
    let out := if s.eOpen then (if s.eRep then [s.eVal, s.eVal, s.eCnt] else [s.eVal]) else []
    ∃ t, step s = .next t ∧ SameInput s t ∧ t.op = .none ∧ t.busy = false ∧
      (s.opos.toNat + out.length ≤ s.outCap.toNat →
        t.statusWord = 0x00000002#32 ∧ t.errPos = 0#32 ∧
        t.outLen.toNat = s.opos.toNat + out.length ∧
        (∀ j, Memory.get? t.outBuf j =
          if s.opos.toNat ≤ j ∧ j < s.opos.toNat + out.length then out[j - s.opos.toNat]?
          else Memory.get? s.outBuf j)) ∧
      (s.outCap.toNat < s.opos.toNat + out.length →
        t.statusWord = 0x0000000A#32 ∧ t.errPos = s.inLen ∧ t.outLen = 0#32)

/-- 40_encode.md R109: e_cnt never wraps. A step of a running ENCODE that does not end it either leaves
e_rep and e_cnt alone, or opens a chunk (e_rep = 0, e_cnt = 0), or counts the second occurrence of a
chunk (e_rep from 0 to 1, e_cnt = 0), or counts one more (e_rep = 1 before and after) and then e_cnt
grows by exactly 1 as a number: within a chunk it goes back to 0 in no case. -/
def Obligations.EncoderCounterNeverWraps : Prop :=
  ∀ s t : State, s.op = .enc → step s = .next t → t.op = .enc →
    (t.eRep = s.eRep ∧ t.eCnt = s.eCnt) ∨
    (t.eRep = false ∧ t.eCnt = 0#8) ∨
    (s.eRep = false ∧ t.eRep = true ∧ t.eCnt = 0#8) ∨
    (s.eRep = true ∧ t.eRep = true ∧ t.eCnt.toNat = s.eCnt.toNat + 1)

/-! ### The engine as a whole -/

/-- 20_memory.md R56, R62, R63: an engine turn writes neither IN nor IN_LEN nor a constant, and its writes
to OUT stay below OUT_CAP. -/
def Obligations.EngineLeavesInputAlone : Prop :=
  ∀ s t : State, Inv s → engineTurn s = .next t →
    SameInput s t ∧ t.input = s.input ∧ t.inputSeq = s.inputSeq ∧
      (∀ j, s.outCap.toNat ≤ j → Memory.get? t.outBuf j = none)

/-- 10_state.md R36, R37: while an operation runs, the scan index is never decreased and stays within
0..N, the output count is never decreased and stays within 0..OUT_CAP, and neither wraps. -/
def Obligations.ScanNeverGoesBack : Prop :=
  ∀ s t : State, Inv s → s.op ≠ .none → step s = .next t → t.op ≠ .none →
    s.ipos.toNat ≤ t.ipos.toNat ∧ t.ipos.toNat ≤ t.inLen.toNat ∧
    s.opos.toNat ≤ t.opos.toNat ∧ t.opos.toNat ≤ t.outCap.toNat

/-- 42_command.md R165, 40_encode.md R115, 41_decode.md R150: every operation reaches its completion, after
at most one engine turn for each input byte still to read and one to finish. -/
def Obligations.EveryOperationCompletes : Prop :=
  ∀ s : State, Inv s → s.op ≠ .none → s.input = [] →
    ∃ k t, k ≤ s.inLen.toNat - s.ipos.toNat + 1 ∧ runSteps k s = .next t ∧
      t.op = .none ∧ t.busy = false ∧ t.done = true

/-- 42_command.md R168, 40_encode.md R100, R108: a whole ENCODE. From any idle state with IN_LEN ≤ IN_CAP,
the command and the engine turns after it end in exactly the result of the bounded encoder over
IN[0..IN_LEN), and IN, IN_LEN and the capacities are unchanged. -/
def Obligations.EncodeCommandComputesEnc : Prop :=
  ∀ (g : BitVec 30) (s : State), Inv s → s.busy = false → s.input = [] →
    s.inLen.toNat ≤ s.inCap.toNat →
    ∃ u t, exec (.encode g) s = .next u ∧ runSteps (s.inLen.toNat + 1) u = .next t ∧
      t.op = .none ∧ SameInput s t ∧
      t.result = expectedResult (encBounded s.outCap.toNat s.inputSeq)

/-- 42_command.md R168, 41_decode.md R130, R138: a whole DECODE, likewise, with the bounded decoder. -/
def Obligations.DecodeCommandComputesDec : Prop :=
  ∀ (g : BitVec 30) (s : State), Inv s → s.busy = false → s.input = [] →
    s.inLen.toNat ≤ s.inCap.toNat →
    ∃ u t, exec (.decode g) s = .next u ∧ runSteps (s.inLen.toNat + 1) u = .next t ∧
      t.op = .none ∧ SameInput s t ∧
      t.result = expectedResult (decBounded s.outCap.toNat s.inputSeq)

/-- 40_encode.md R114, 41_decode.md R147: the result of an ENCODE or DECODE depends only on IN[0..IN_LEN),
IN_LEN and the capacities, not on earlier commands, OUT's contents or internal state. -/
def Obligations.ResultDependsOnlyOnOperands : Prop :=
  ∀ (i : Instr) (s s' : State), (∃ g, i = .encode g) ∨ (∃ g, i = .decode g) →
    Inv s → Inv s' → s.busy = false → s'.busy = false → s.input = [] → s'.input = [] →
    s.inputSeq = s'.inputSeq → s.inLen = s'.inLen → s.inCap = s'.inCap → s.outCap = s'.outCap →
    ∃ u u' t t', exec i s = .next u ∧ exec i s' = .next u' ∧
      runSteps (s.inLen.toNat + 1) u = .next t ∧ runSteps (s'.inLen.toNat + 1) u' = .next t' ∧
      t.op = .none ∧ t'.op = .none ∧ t.result = t'.result

/-- 42_command.md R165, 20_memory.md R58: how host reads and engine turns interleave does not matter. From
a running operation, any finite list of reads and engine turns, and then the engine alone, ends in the
same result as the engine alone. -/
def Obligations.InterleavedReadsDoNotMatter : Prop :=
  ∀ (s : State) (events : List Event), Inv s → s.op ≠ .none → s.input = [] →
    (∀ e ∈ events, e = .engine ∨ ∃ w a, e = .access (.read w a)) →
    ∃ t t', runSteps (s.inLen.toNat + 1) s = .next t ∧
      runSteps (events.length + (s.inLen.toNat + 1)) (s.withInput events) = .next t' ∧
      t.op = .none ∧ t'.op = .none ∧ t'.result = t.result ∧ SameInput s t ∧
      t'.inBuf = s.inBuf ∧ t'.inLen = s.inLen

/-- 10_state.md R39, 41_decode.md R133 to R136 (log 1): a DECODE run record by record ends in the same
state as one run byte by byte, at the spec's own granularity. -/
def Obligations.RecordTurnsAgreeWithByteTurns : Prop :=
  ∀ s : State, Inv s → s.op = .dec → s.input = [] →
    runSteps (s.inLen.toNat + 1) s = .next (byteDecodeTurn^[s.inLen.toNat + 1] s)

/-- 41_decode.md R141, 70_reset_and_hazards.md R238: the round trip through the block. Whatever ENCODE
leaves in OUT, copied into IN and decoded, gives the original input back, if the capacities allow. -/
def Obligations.RoundTripThroughTheBlock : Prop :=
  ∀ (g g' : BitVec 30) (s s' : State), Inv s → Inv s' → s.busy = false → s'.busy = false →
    s.input = [] → s'.input = [] → s.inLen.toNat ≤ s.inCap.toNat →
    (enc s.inputSeq).length ≤ s.outCap.toNat →
    ∃ u t, exec (.encode g) s = .next u ∧ runSteps (s.inLen.toNat + 1) u = .next t ∧
      t.statusWord = 0x00000002#32 ∧
      (s'.inLen = t.outLen → s'.inputSeq.map some = t.outputSeq → s'.inLen.toNat ≤ s'.inCap.toNat →
        s.inLen.toNat ≤ s'.outCap.toNat →
        ∃ u' t', exec (.decode g') s' = .next u' ∧ runSteps (s'.inLen.toNat + 1) u' = .next t' ∧
          t'.statusWord = 0x00000002#32 ∧ t'.outLen = s.inLen ∧ t'.outputSeq = s.inputSeq.map some)

/-! ### The codec -/

/-- 41_decode.md R141: `dec(enc(x)) = Ok(x)` for every byte sequence x. -/
def Obligations.DecodeInvertsEncodeOnSequences : Prop :=
  ∀ x : List Byte, dec (enc x) = .ok x

/-- 41_decode.md R146: what the encoder writes is a canonical stream of records that stand for its
input. -/
def Obligations.EncoderOutputIsCanonical : Prop :=
  ∀ x : List Byte, ∃ records, Stream.canonical records = true ∧ encodeStream records = enc x ∧
    records.flatMap expand = x

/-- 40_encode.md R111: the output length bound, and the length for a single run. -/
def Obligations.EncodedLengthBound : Prop :=
  (∀ x : List Byte, (enc x).length ≤ 3 * x.length / 2) ∧
  (∀ (v : Byte) (l : Nat), (enc (List.replicate l v)).length =
    3 * (l / 257) + (if l % 257 = 0 then 0 else if l % 257 = 1 then 1 else 3))

/-- 41_decode.md R145: the output length bound of the decoder. -/
def Obligations.DecodedLengthBound : Prop :=
  ∀ y out : List Byte, dec y = .ok out → out.length ≤ 257 * (y.length / 3) + y.length % 3

/-- 40_encode.md R112: if no two adjacent bytes are equal, the encoding is the input. -/
def Obligations.NoRepetitionEncodesToItself : Prop :=
  ∀ x : List Byte, (∀ i, i + 1 < x.length → x[i]? ≠ x[i + 1]?) → enc x = x

/-- 41_decode.md R143: MALFORMED is raised only at the last index, of a stream of at least two bytes whose
last two are equal; the condition is not sufficient. -/
def Obligations.MalformedOnlyAtTheEnd : Prop :=
  (∀ (y : List Byte) (p : Nat), dec y = .malformed p →
    2 ≤ y.length ∧ p + 1 = y.length ∧ y[p - 1]? = y[p]?) ∧
  dec [0x05#8, 0x05#8, 0x00#8, 0x00#8] = .ok [0x05#8, 0x05#8, 0x00#8]

/-- 41_decode.md R149: with DEC_ARM_AFTER_RUN = true (not this hardware) the encodings of 258 and 259
equal bytes are not decoded back. -/
def Obligations.ArmedAfterRunBreaksRoundTrip : Prop :=
  decWith true [0xAA#8, 0xAA#8, 0xFF#8, 0xAA#8] = .malformed 3 ∧
  decWith true [0xAA#8, 0xAA#8, 0xFF#8, 0xAA#8, 0xAA#8, 0x00#8] =
    .ok (List.replicate 428 0xAA#8 ++ [0x00#8])

/-- 40_encode.md R108: OVERFLOW is raised exactly when |enc(x)| > OUT_CAP, and otherwise the bytes written
are exactly enc(x). -/
def Obligations.EncoderOverflowsExactlyAboveCapacity : Prop :=
  ∀ (cap : Nat) (x : List Byte),
    ((enc x).length ≤ cap → encBounded cap x = .ok (enc x)) ∧
    (cap < (enc x).length → ∃ p, p ≤ x.length ∧ encBounded cap x = .overflow p)

/-- 41_decode.md R138, 60_exceptions.md R207: the bounded decoder writes `out` when it fits and overflows
when it does not; a malformed stream ends in MALFORMED unless an earlier step overflows. -/
def Obligations.DecoderOverflowsExactlyAboveCapacity : Prop :=
  ∀ (cap : Nat) (y : List Byte),
    (∀ out, dec y = .ok out → out.length ≤ cap → decBounded cap y = .ok out) ∧
    (∀ out, dec y = .ok out → cap < out.length → ∃ p, p < y.length ∧ decBounded cap y = .overflow p) ∧
    (∀ p, dec y = .malformed p →
      decBounded cap y = .malformed p ∨ ∃ q, q < p ∧ decBounded cap y = .overflow q)
end

