-- ==== Sys2Proof/Laws/Codec.lean ====
section
/-! SUPPORT. The pure codec, one record or one chunk at a time. -/

namespace Sys2Proof.Codec

open Sys2Proof.Machine

/-- `dec` as a scan from the start state (41_decode.md R132). -/
theorem dec_eq (y : List Byte) : dec y =
    match y with
    | [] => .ok []
    | b :: bs => decScan false (sentinel b) true 0 [] (b :: bs) := by
  cases y <;> rfl

/-- A decoding result with bytes before its output. -/
def Decoded.prepend (o : List Byte) : Decoded → Decoded
  | .ok out => .ok (o ++ out)
  | .malformed p => .malformed p

/-- The scan appends to its output. -/
theorem decScan_prepend (arm p a pos) (o : List Byte) (y) :
    decScan arm p a pos o y = Decoded.prepend o (decScan arm p a pos [] y) := by
  induction hn : y.length using Nat.strong_induction_on generalizing p a pos o y with
  | _ n ih =>
    match y with
    | [] => simp [decScan, Decoded.prepend]
    | [c] => simp only [decScan]; split <;> simp [Decoded.prepend]
    | c :: l :: r =>
      have hr : r.length < n := by simp at hn; omega
      have hr' : (l :: r).length < n := by simp at hn ⊢; omega
      simp only [decScan, List.nil_append]
      split
      · rw [ih _ hr _ _ _ (o ++ _) r rfl, ih _ hr _ _ _ (List.replicate _ _) r rfl]
        cases decScan arm c arm (pos + 2) [] r <;> simp [Decoded.prepend]
      · rw [ih _ hr' _ _ _ (o ++ _) _ rfl, ih _ hr' _ _ _ [c] _ rfl]
        cases decScan arm c true (pos + 1) [] (l :: r) <;> simp [Decoded.prepend]

/-- The scan stands at a record boundary: the next byte is no marker (41_decode.md R139, R140). -/
def AtBoundary (p : Byte) (a : Bool) (y : List Byte) : Prop := a = true → y.head? ≠ some p

/-- At a boundary the next byte is a literal (41_decode.md R134). -/
theorem decScan_literal {p a pos o v r} (hb : AtBoundary p a (v :: r)) :
    decScan false p a pos o (v :: r) = decScan false v true (pos + 1) (o ++ [v]) r := by
  have hm : (a && v == p) = false := by
    cases a
    · rfl
    · have := hb rfl; simpa using this
  cases r with
  | nil => simp [decScan, hm]
  | cons l r => simp [decScan, hm]

/-- At a boundary an equal pair and its length byte are a run record (41_decode.md R135). -/
theorem decScan_run {p a pos o v l r} (hb : AtBoundary p a (v :: v :: l :: r)) :
    decScan false p a pos o (v :: v :: l :: r) = decScan false v false (pos + 3) (o ++
        List.replicate (l.toNat + 2) v) r := by
  rw [decScan_literal hb]
  simp [decScan, List.replicate_succ]

/-- The bounded scan at a byte that is no marker. -/
theorem decBoundedScan_literal {cap p a pos o v r} (hm : (a && v == p) = false) :
    decBoundedScan cap p a pos o (v :: r) = if o.length + 1 ≤ cap then decBoundedScan cap v true
        (pos + 1) (o ++ [v]) r else .overflow pos := by
  cases r with
  | nil => simp [decBoundedScan, hm]
  | cons l r => simp [decBoundedScan, hm]

/-- The bounded scan at a marker with its length byte. -/
theorem decBoundedScan_marker {cap pos o v l r} : decBoundedScan cap v true pos o (v :: l ::
    r) = if o.length + (l.toNat + 1) ≤ cap then decBoundedScan cap v false (pos + 2) (o ++
        List.replicate (l.toNat + 1) v) r else .overflow pos := by
  simp [decBoundedScan, Config.decArmAfterRun]

/-- The bounded scan at a marker without a length byte. -/
theorem decBoundedScan_truncated {cap pos o v} : decBoundedScan cap v true pos o [v] = .malformed
    pos := by
  simp [decBoundedScan]

/-- The record the encoder writes for a chunk (40_encode.md R101). -/
def chunkInstr (v : Byte) (n : Nat) : Instr := if n = 1 then .lit v else .run v (BitVec.ofNat 8 (n -
    2))

theorem chunkInstr_bytes (v n) : recordBytes (chunkInstr v n) = record v n :=
    by unfold chunkInstr record; split <;> rfl

theorem chunkInstr_expand {v n} (h1 : 1 ≤ n) (h2 : n ≤ 257) :
    expand (chunkInstr v n) = List.replicate n v := by
  unfold chunkInstr; split
  · next h => subst h; rfl
  · simp only [expand, BitVec.toNat_ofNat]; congr 1; omega

theorem chunkInstr_isRecord (v n) : (chunkInstr v n).isRecord = true :=
    by unfold chunkInstr; split <;> rfl

theorem chunkInstr_value (v n) : (chunkInstr v n).value = some v :=
    by unfold chunkInstr; split <;> rfl

/-- A chunk has 1 to 257 occurrences (40_encode.md R102). -/
theorem chunks_mem {l n} (hn : n ∈ chunks 257 l) : 1 ≤ n ∧ n ≤ 257 := by
  simp only [chunks, List.mem_append, List.mem_replicate] at hn
  rcases hn with ⟨_, rfl⟩ | hn
  · omega
  · split at hn
    · cases hn
    · simp at hn; omega

/-- The chunks of a run stand for the run. -/
theorem chunks_expand (v l) : ((chunks 257 l).map (chunkInstr v)).flatMap expand = List.replicate l
    v := by
  have e : ∀ ns : List Nat, (∀ n ∈ ns, 1 ≤ n ∧ n ≤ 257) →
      (ns.map (chunkInstr v)).flatMap expand = List.replicate ns.sum v := by
    intro ns h
    induction ns with
    | nil => rfl
    | cons n ns ih =>
      have := h n (by simp)
      rw [List.map_cons, List.flatMap_cons, ih (fun m hm => h m (by simp [hm])),
          chunkInstr_expand this.1 this.2, List.sum_cons, List.replicate_add]
  rw [e _ (fun n hn => chunks_mem hn)]
  congr 1
  simp only [chunks, List.sum_append, List.sum_replicate]
  split <;> simp <;> omega

theorem record_len {v n} : (record v n).length = if n = 1 then 1 else 3 :=
    by unfold record; split <;> rfl

theorem chunks_one {n} (h1 : 1 ≤ n) (h2 : n ≤ 257) : chunks 257 n = [n] := by
  by_cases h : n = 257
  · subst h; rfl
  · have : n / 257 = 0 := by omega
    have : n % 257 = n := by omega
    simp [chunks, *]; omega

theorem chunks_add (m) : chunks 257 (257 + m) = 257 :: chunks 257 m := by
  have : (257 + m) / 257 = m / 257 + 1 := by omega
  have : (257 + m) % 257 = m % 257 := by omega
  simp [chunks, *, List.replicate_succ]

theorem chunks_258 : chunks 257 258 = 257 :: chunks 257 1 := chunks_add 1

/-- The runs of a sequence are the sequence (40_encode.md R102). -/
theorem runs_expand (x) : (runs x).flatMap (fun r => List.replicate r.2 r.1) = x := by
  induction x with
  | nil => rfl
  | cons b bs ih =>
    simp only [runs]
    cases h : runs bs with
    | nil => rw [h] at ih; simp at ih; simp [← ih]
    | cons r rs =>
      obtain ⟨v, l⟩ := r
      rw [h] at ih
      simp only
      split
      · next hv => subst hv; rw [← ih]; simp [List.replicate_succ]
      · rw [← ih]; simp

theorem runs_head (b bs) : ∃ l rs, runs (b :: bs) = (b, l) :: rs := by
  simp only [runs]
  cases runs bs with
  | nil => exact ⟨_, _, rfl⟩
  | cons r rs =>
    obtain ⟨v, l⟩ := r
    simp only
    split
    · next h => subst h; exact ⟨_, _, rfl⟩
    · exact ⟨_, _, rfl⟩

/-- What the encoder still writes from an open chunk of n bytes v on. -/
def openChunkBytes (v : Byte) : Nat → List Byte → List Byte
  | n, [] => record v n
  | n, b :: bs => if b = v ∧ n ≠ 257 then openChunkBytes v (n + 1) bs else record v n ++
      openChunkBytes b 1 bs

/-- Runs with n more bytes v in front. -/
def addChunk (v : Byte) (n : Nat) : List (Byte × Nat) → List (Byte × Nat)
  | [] => [(v, n)]
  | (w, l) :: rs => if w = v then (v, n + l) :: rs else (v, n) :: (w, l) :: rs

/-- The encoding of a list of runs (40_encode.md R103). -/
def encodeRuns (rs : List (Byte × Nat)) : List Byte := rs.flatMap fun r =>
    (chunks 257 r.2).flatMap (record r.1)

theorem runs_cons (b bs) : runs (b :: bs) = addChunk b 1 (runs bs) := by
  rw [runs]
  cases runs bs with
  | nil => rfl
  | cons r rs =>
    obtain ⟨w, l⟩ := r
    simp only [addChunk]
    by_cases h : b = w
    · subst h; simp [Nat.add_comm]
    · simp [h, Ne.symm h]

/-- The encoder's pass writes the encoding of the runs (40_encode.md R103, R105). -/
theorem openChunkBytes_eq (bs : List Byte) (v n) (h1 : 1 ≤ n) (h2 : n ≤ 257) :
    openChunkBytes v n bs = encodeRuns (addChunk v n (runs bs)) := by
  induction bs generalizing v n with
  | nil => simp [openChunkBytes, runs, addChunk, encodeRuns, chunks_one h1 h2]
  | cons b bs ih =>
    rw [openChunkBytes, runs_cons]
    split
    · next h =>
      obtain ⟨rfl, h⟩ := h
      rw [ih _ _ (by omega) (by omega)]
      congr 1
      cases runs bs with
      | nil => simp [addChunk]
      | cons r rs =>
        obtain ⟨w, l⟩ := r
        simp only [addChunk]
        split <;> simp [Nat.add_assoc]
    · next h =>
      rw [ih _ _ (by omega) (by omega)]
      by_cases hb : b = v
      · subst hb
        have : n = 257 := by by_contra hn; exact h ⟨rfl, hn⟩
        subst this
        cases runs bs with
        | nil => simp [addChunk, encodeRuns, chunks_258]
        | cons r rs =>
          obtain ⟨w, l⟩ := r
          simp only [addChunk]
          split <;> simp [encodeRuns, chunks_add, chunks_258]
      · cases runs bs with
        | nil => simp [addChunk, encodeRuns, chunks_one h1 h2, hb]
        | cons r rs =>
          obtain ⟨w, l⟩ := r
          simp only [addChunk]
          split <;> simp [encodeRuns, chunks_one h1 h2, hb]

end Sys2Proof.Codec
end

