-- ==== Sys2Proof/Laws/Decode.lean ====
section
/-! SUPPORT. Records and commands, one at a time: what decoding splits and encoding joins. -/

namespace Sys2Proof

theorem decodeCommand_nop {w : Word} (h : w.extractLsb' 0 2 = 0#2) : ∃ g,
    decodeCommand w = .nop g := by
  unfold decodeCommand; rw [h]; exact ⟨_, rfl⟩

/-- The four values of OP (30_encoding.md R75). -/
theorem op_cases (w : Word) : (w.extractLsb' 0 2 = 0#2 ∧ ∃ g, decodeCommand w = .nop g) ∨
    (w.extractLsb' 0 2 = 1#2 ∧ ∃ g, decodeCommand w = .encode g) ∨ (w.extractLsb' 0 2 = 2#2 ∧
        ∃ g, decodeCommand w = .decode g) ∨ (w.extractLsb' 0 2 = 3#2 ∧
            ∃ g, decodeCommand w = .reserved g) := by
  unfold decodeCommand
  generalize w.extractLsb' 0 2 = o
  have : o = 0#2 ∨ o = 1#2 ∨ o = 2#2 ∨ o = 3#2 := by revert o; decide
  rcases this with rfl | rfl | rfl | rfl
  · exact .inl ⟨rfl, _, rfl⟩
  · exact .inr (.inl ⟨rfl, _, rfl⟩)
  · exact .inr (.inr (.inl ⟨rfl, _, rfl⟩))
  · exact .inr (.inr (.inr ⟨rfl, _, rfl⟩))

theorem decodeRecord_isRecord {bs : List Byte} {i r} (h : decodeRecord bs = .ok (i, r)) : (∃ v,
    i = .lit v) ∨ ∃ v l, i = .run v l := by
  unfold decodeRecord at h
  split at h
  · cases h
  · cases h; exact .inl ⟨_, rfl⟩
  · split at h
    · split at h
      · cases h
      · cases h; exact .inr ⟨_, _, rfl⟩
    · cases h; exact .inl ⟨_, rfl⟩

/-- What decodeRecord gives is a record, its bytes stand at the front, and it stops where it should.
-/
theorem decodeRecord_split {bs : List Byte} {i r} (h : decodeRecord bs = .ok (i, r)) :
    bs = recordBytes i ++ r ∧ i.isRecord = true ∧ (∀ v, i = .lit v → r.head? ≠ some v) := by
  unfold decodeRecord at h
  split at h
  · cases h
  · cases h; exact ⟨rfl, rfl, by simp⟩
  · next v w rest =>
    split at h
    · next hv =>
      subst hv
      split at h
      · cases h
      · cases h; exact ⟨rfl, rfl, by simp⟩
    · next hv =>
      cases h
      refine ⟨rfl, rfl, fun u hu => ?_⟩
      cases hu
      simpa using fun e => hv e.symm

/-- The converse: the bytes of a record decode to it. -/
theorem decodeRecord_join {i : Instr} {r : List Byte} (h : i.isRecord = true) (h2 : ∀ v,
    i = .lit v → r.head? ≠ some v) : decodeRecord (recordBytes i ++ r) = .ok (i, r) := by
  cases i with
  | lit v =>
    cases r with
    | nil => rfl
    | cons w r =>
      have := h2 v rfl
      simp at this
      simp [recordBytes, decodeRecord, Ne.symm this]
  | run v l => simp [recordBytes, decodeRecord]
  | _ => cases h

theorem decodeRecord_take {bs i r} (h : decodeRecord bs = .ok (i, r)) : ∃ i',
    decodeRecord (bs.take 3) = .ok (i, i') := by
  unfold decodeRecord at h
  split at h
  · cases h
  · cases h; exact ⟨_, rfl⟩
  · split at h
    · next hv =>
      split at h
      · cases h
      · cases h
        subst hv
        exact ⟨[], by simp [decodeRecord]⟩
    · next hv =>
      cases h
      simp [decodeRecord, hv]

theorem recordBytes_pos {i : Instr} (h : i.isRecord = true) : 0 < (recordBytes i).length := by
  cases i <;> simp [recordBytes, Instr.isRecord] at *

theorem recordBytes_head {i : Instr} (h : i.isRecord = true) (r) :
    (recordBytes i ++ r).head? = i.value := by
  cases i <;> simp [recordBytes, Instr.isRecord, Instr.value] at *

/-- A well-formed sequence, one record at a time. -/
theorem wellFormed_cons {i : Instr} {rs : List Instr} (h : Stream.wellFormed (i :: rs) = true) :
    i.isRecord = true ∧ Stream.wellFormed rs = true ∧ ∀ v, i = .lit v →
        (encodeStream rs).head? ≠ some v := by
  cases rs with
  | nil => exact ⟨h, rfl, fun v _ => by simp [encodeStream]⟩
  | cons j rs =>
    simp only [Stream.wellFormed, Bool.and_eq_true] at h
    refine ⟨h.1.1, h.2, ?_⟩
    rintro v rfl
    have hj : j.isRecord = true := by
      cases rs with
      | nil => exact h.2
      | cons k rs =>
        have := h.2
        simp only [Stream.wellFormed, Bool.and_eq_true] at this
        exact this.1.1
    have : encodeStream (j :: rs) = recordBytes j ++ encodeStream rs := rfl
    rw [this, recordBytes_head hj]
    have := h.1.2
    simpa [Instr.mayPrecede] using this

theorem tableBytes_len (k w) : (tableBytes k w).length = k :=
    by induction k generalizing w <;> simp [tableBytes, *]

end Sys2Proof
end

