-- ==== Sys2Proof/Laws/Memory.lean ====
section
/-! SUPPORT. The laws of the byte memories: read after write, the canonical form, and consecutive stores. -/

namespace Sys2Proof.Machine

@[simp] theorem Memory.get?_nil (i : Nat) : Memory.get? [] i = none := rfl

@[simp] theorem Memory.get?_set_same (m : List Host.Cell) (i : Nat) (b : Byte) :
    Memory.get? (Memory.set m i b) i = some b := by
  induction m with
  | nil => simp [Memory.set, Memory.get?]
  | cons c m ih =>
    obtain ⟨k, v⟩ := c
    by_cases h : i < k
    · simp [Memory.set, Memory.get?, h]
    · by_cases h' : i = k
      · simp [Memory.set, Memory.get?, h']
      · simp [Memory.set, Memory.get?, h, h', Ne.symm h', ih]

theorem Memory.get?_set_ne (m : List Host.Cell) {i j : Nat} (b : Byte) (h : j ≠ i) :
    Memory.get? (Memory.set m i b) j = Memory.get? m j := by
  induction m with
  | nil => simp [Memory.set, Memory.get?, Ne.symm h]
  | cons c m ih =>
    obtain ⟨k, v⟩ := c
    by_cases h1 : i < k
    · simp [Memory.set, Memory.get?, h1, Ne.symm h]
    · by_cases h2 : i = k
      · subst h2; simp [Memory.set, Memory.get?, Ne.symm h]
      · simp [Memory.set, Memory.get?, h1, h2, ih]

/-- Read after one write, both cases at once. -/
theorem Memory.get?_set (m : List Host.Cell) (i j : Nat) (b : Byte) :
    Memory.get? (Memory.set m i b) j = if j = i then some b else Memory.get? m j := by
  by_cases h : j = i
  · subst h; simp
  · simp [h, Memory.get?_set_ne m b h]

/-- Read after consecutive writes. -/
theorem Memory.get?_setAll (bs : List Byte) (m : List Host.Cell) (i j : Nat) :
    Memory.get? (Memory.setAll m i bs) j =
      if i ≤ j ∧ j < i + bs.length then bs[j - i]? else Memory.get? m j := by
  induction bs generalizing m i with
  | nil =>
    rw [if_neg (by simp only [List.length_nil]; omega)]
    cases m <;> rfl
  | cons b bs ih =>
    rw [Memory.setAll, ih, Memory.get?_set]
    simp only [List.length_cons]
    by_cases h : j = i
    · subst h; simp
    · by_cases h1 : i + 1 ≤ j ∧ j < i + 1 + bs.length
      · obtain ⟨k, rfl⟩ : ∃ k, j = i + 1 + k := ⟨j - (i + 1), by omega⟩
        rw [if_pos h1, if_pos (by omega), show i + 1 + k - (i + 1) = k by omega,
          show i + 1 + k - i = k + 1 by omega, List.getElem?_cons_succ]
      · rw [if_neg h1, if_neg h, if_neg (by omega)]

@[simp] theorem Memory.setAll_nil (m : List Host.Cell) (i : Nat) : Memory.setAll m i [] = m := by
  cases m <;> rfl

theorem Memory.setAll_append (bs cs : List Byte) (m : List Host.Cell) (i : Nat) :
    Memory.setAll m i (bs ++ cs) = Memory.setAll (Memory.setAll m i bs) (i + bs.length) cs := by
  induction bs generalizing m i with
  | nil => simp
  | cons b bs ih => simp [Memory.setAll, ih]; congr 1; omega

/-! ### The canonical form -/

/-- Every index of a memory in canonical form after its first is larger. -/
theorem Memory.wf_cons_lt {k : Nat} {v : Byte} {m : List Host.Cell} (h : Memory.wf ((k, v) :: m) = true) :
    Memory.wf m = true ∧ ∀ c ∈ m, k < c.1 := by
  induction m generalizing k v with
  | nil => simp [Memory.wf]
  | cons c m ih =>
    obtain ⟨j, w⟩ := c
    simp only [Memory.wf, Bool.and_eq_true, decide_eq_true_eq] at h
    refine ⟨h.2, fun c hc => ?_⟩
    rcases List.mem_cons.1 hc with rfl | hc
    · exact h.1
    · exact Nat.lt_trans h.1 ((ih h.2).2 c hc)

/-- The converse: prepending a smaller index keeps the form. -/
theorem Memory.wf_cons {k : Nat} {v : Byte} {m : List Host.Cell} (h : Memory.wf m = true)
    (hk : ∀ c ∈ m, k < c.1) : Memory.wf ((k, v) :: m) = true := by
  cases m with
  | nil => rfl
  | cons c m =>
    obtain ⟨j, w⟩ := c
    simp only [Memory.wf, Bool.and_eq_true, decide_eq_true_eq]
    exact ⟨hk (j, w) (by simp), h⟩

/-- The indices listed after a write are the old ones and the written one. -/
theorem Memory.mem_set {m : List Host.Cell} {i : Nat} {b : Byte} {c : Host.Cell}
    (h : c ∈ Memory.set m i b) : c = (i, b) ∨ c ∈ m := by
  induction m with
  | nil => simpa [Memory.set] using h
  | cons d m ih =>
    obtain ⟨k, v⟩ := d
    simp only [Memory.set] at h
    split at h
    · simpa using h
    · split at h
      · rcases List.mem_cons.1 h with h | h
        · exact .inl h
        · exact .inr (List.mem_cons_of_mem _ h)
      · rcases List.mem_cons.1 h with h | h
        · exact .inr (h ▸ List.mem_cons_self ..)
        · exact (ih h).imp_right (List.mem_cons_of_mem _)

/-- A write keeps the canonical form. -/
theorem Memory.wf_set {m : List Host.Cell} (h : Memory.wf m = true) (i : Nat) (b : Byte) :
    Memory.wf (Memory.set m i b) = true := by
  induction m with
  | nil => rfl
  | cons c m ih =>
    obtain ⟨k, v⟩ := c
    obtain ⟨hm, hk⟩ := Memory.wf_cons_lt h
    simp only [Memory.set]
    split
    · next hlt =>
      refine Memory.wf_cons h fun c hc => ?_
      rcases List.mem_cons.1 hc with rfl | hc
      · exact hlt
      · exact Nat.lt_trans hlt (hk c hc)
    · split
      · next heq => exact Memory.wf_cons hm (heq ▸ hk)
      · next h1 h2 =>
        refine Memory.wf_cons (ih hm) fun c hc => ?_
        rcases Memory.mem_set hc with rfl | hc
        · show k < i
          omega
        · exact hk c hc

/-- Consecutive writes keep the canonical form. -/
theorem Memory.wf_setAll {m : List Host.Cell} (h : Memory.wf m = true) (i : Nat) (bs : List Byte) :
    Memory.wf (Memory.setAll m i bs) = true := by
  induction bs generalizing m i with
  | nil => simpa using h
  | cons b bs ih => exact ih (Memory.wf_set h i b) (i + 1)

/-- Both buffers are in canonical form after reset. -/
theorem Memory.wf_reset :
    Memory.wf State.reset.inBuf = true ∧ Memory.wf State.reset.outBuf = true := ⟨rfl, rfl⟩

/-! ### A memory that lists exactly the first n indices -/

/-- A write at an index above every listed one lists it last. -/
theorem Memory.keys_set_end {m : List Host.Cell} {i : Nat} (b : Byte) (h : ∀ c ∈ m, c.1 < i) :
    (Memory.set m i b).map Prod.fst = m.map Prod.fst ++ [i] := by
  induction m with
  | nil => rfl
  | cons c m ih =>
    obtain ⟨k, v⟩ := c
    have hk : k < i := h (k, v) (by simp)
    simp only [Memory.set, show ¬ i < k by omega, show ¬ i = k by omega, if_false, List.map_cons,
      List.cons_append, ih fun c hc => h c (List.mem_cons_of_mem _ hc)]

/-- A write just above indices 0..n-1 makes it 0..n. -/
theorem Memory.keys_set_range {m : List Host.Cell} {n : Nat} (b : Byte)
    (h : m.map Prod.fst = List.range n) :
    (Memory.set m n b).map Prod.fst = List.range (n + 1) := by
  rw [Memory.keys_set_end b, h, List.range_succ]
  intro c hc
  have : c.1 ∈ m.map Prod.fst := List.mem_map_of_mem hc
  simpa [h] using this

theorem Memory.keys_setAll_range {m : List Host.Cell} {n : Nat} (bs : List Byte)
    (h : m.map Prod.fst = List.range n) :
    (Memory.setAll m n bs).map Prod.fst = List.range (n + bs.length) := by
  induction bs generalizing m n with
  | nil => simpa using h
  | cons b bs ih =>
    rw [Memory.setAll, ih (Memory.keys_set_range b h), List.length_cons]
    congr 1; omega

/-- Listed indices are exactly those that have a stored byte. -/
theorem Memory.get?_isSome_iff (m : List Host.Cell) (i : Nat) :
    (Memory.get? m i).isSome = true ↔ i ∈ m.map Prod.fst := by
  induction m with
  | nil => simp
  | cons c m ih =>
    obtain ⟨k, v⟩ := c
    by_cases h : k = i
    · simp [Memory.get?, h]
    · simp [Memory.get?, h, ih, Ne.symm h]

end Sys2Proof.Machine
end

