-- ==== Sys2Proof/Laws/State.lean ====
section
/-! SUPPORT. What each update of State does to each field: one lemma per field per update. -/

namespace Sys2Proof.Machine

/-! ### `State.withInput` -/

@[simp] theorem State.withInput_inCap (s : State) (es : List Event) : (s.withInput es).inCap = s.inCap := rfl
@[simp] theorem State.withInput_outCap (s : State) (es : List Event) : (s.withInput es).outCap = s.outCap := rfl
@[simp] theorem State.withInput_busy (s : State) (es : List Event) : (s.withInput es).busy = s.busy := rfl
@[simp] theorem State.withInput_done (s : State) (es : List Event) : (s.withInput es).done = s.done := rfl
@[simp] theorem State.withInput_err (s : State) (es : List Event) : (s.withInput es).err = s.err := rfl
@[simp] theorem State.withInput_inLen (s : State) (es : List Event) : (s.withInput es).inLen = s.inLen := rfl
@[simp] theorem State.withInput_outLen (s : State) (es : List Event) : (s.withInput es).outLen = s.outLen := rfl
@[simp] theorem State.withInput_errPos (s : State) (es : List Event) : (s.withInput es).errPos = s.errPos := rfl
@[simp] theorem State.withInput_inBuf (s : State) (es : List Event) : (s.withInput es).inBuf = s.inBuf := rfl
@[simp] theorem State.withInput_outBuf (s : State) (es : List Event) : (s.withInput es).outBuf = s.outBuf := rfl
@[simp] theorem State.withInput_op (s : State) (es : List Event) : (s.withInput es).op = s.op := rfl
@[simp] theorem State.withInput_ipos (s : State) (es : List Event) : (s.withInput es).ipos = s.ipos := rfl
@[simp] theorem State.withInput_opos (s : State) (es : List Event) : (s.withInput es).opos = s.opos := rfl
@[simp] theorem State.withInput_eOpen (s : State) (es : List Event) : (s.withInput es).eOpen = s.eOpen := rfl
@[simp] theorem State.withInput_eVal (s : State) (es : List Event) : (s.withInput es).eVal = s.eVal := rfl
@[simp] theorem State.withInput_eRep (s : State) (es : List Event) : (s.withInput es).eRep = s.eRep := rfl
@[simp] theorem State.withInput_eCnt (s : State) (es : List Event) : (s.withInput es).eCnt = s.eCnt := rfl
@[simp] theorem State.withInput_dPrev (s : State) (es : List Event) : (s.withInput es).dPrev = s.dPrev := rfl
@[simp] theorem State.withInput_dArmed (s : State) (es : List Event) : (s.withInput es).dArmed = s.dArmed := rfl
@[simp] theorem State.withInput_input (s : State) (es : List Event) : (s.withInput es).input = es := rfl
@[simp] theorem State.withInput_responses (s : State) (es : List Event) : (s.withInput es).responses = s.responses := rfl
@[simp] theorem State.withInput_draws (s : State) (es : List Event) : (s.withInput es).draws = s.draws := rfl
@[simp] theorem State.withInput_resets (s : State) (es : List Event) : (s.withInput es).resets = s.resets := rfl

/-! ### `completeOk` -/

@[simp] theorem completeOk_inCap (s : State) : (completeOk s).inCap = s.inCap := rfl
@[simp] theorem completeOk_outCap (s : State) : (completeOk s).outCap = s.outCap := rfl
@[simp] theorem completeOk_busy (s : State) : (completeOk s).busy = false := rfl
@[simp] theorem completeOk_done (s : State) : (completeOk s).done = true := rfl
@[simp] theorem completeOk_err (s : State) : (completeOk s).err = .noError := rfl
@[simp] theorem completeOk_inLen (s : State) : (completeOk s).inLen = s.inLen := rfl
@[simp] theorem completeOk_outLen (s : State) : (completeOk s).outLen = s.opos := rfl
@[simp] theorem completeOk_errPos (s : State) : (completeOk s).errPos = 0#32 := rfl
@[simp] theorem completeOk_inBuf (s : State) : (completeOk s).inBuf = s.inBuf := rfl
@[simp] theorem completeOk_outBuf (s : State) : (completeOk s).outBuf = s.outBuf := rfl
@[simp] theorem completeOk_op (s : State) : (completeOk s).op = .none := rfl
@[simp] theorem completeOk_ipos (s : State) : (completeOk s).ipos = s.ipos := rfl
@[simp] theorem completeOk_opos (s : State) : (completeOk s).opos = s.opos := rfl
@[simp] theorem completeOk_eOpen (s : State) : (completeOk s).eOpen = s.eOpen := rfl
@[simp] theorem completeOk_eVal (s : State) : (completeOk s).eVal = s.eVal := rfl
@[simp] theorem completeOk_eRep (s : State) : (completeOk s).eRep = s.eRep := rfl
@[simp] theorem completeOk_eCnt (s : State) : (completeOk s).eCnt = s.eCnt := rfl
@[simp] theorem completeOk_dPrev (s : State) : (completeOk s).dPrev = s.dPrev := rfl
@[simp] theorem completeOk_dArmed (s : State) : (completeOk s).dArmed = s.dArmed := rfl
@[simp] theorem completeOk_input (s : State) : (completeOk s).input = s.input := rfl
@[simp] theorem completeOk_responses (s : State) : (completeOk s).responses = s.responses := rfl
@[simp] theorem completeOk_draws (s : State) : (completeOk s).draws = s.draws := rfl
@[simp] theorem completeOk_resets (s : State) : (completeOk s).resets = s.resets := rfl

/-! ### `errorCompletion` -/

@[simp] theorem errorCompletion_inCap (c : ErrCode) (p : Word) (s : State) : (errorCompletion c p s).inCap = s.inCap := rfl
@[simp] theorem errorCompletion_outCap (c : ErrCode) (p : Word) (s : State) : (errorCompletion c p s).outCap = s.outCap := rfl
@[simp] theorem errorCompletion_busy (c : ErrCode) (p : Word) (s : State) : (errorCompletion c p s).busy = false := rfl
@[simp] theorem errorCompletion_done (c : ErrCode) (p : Word) (s : State) : (errorCompletion c p s).done = true := rfl
@[simp] theorem errorCompletion_err (c : ErrCode) (p : Word) (s : State) : (errorCompletion c p s).err = c := rfl
@[simp] theorem errorCompletion_inLen (c : ErrCode) (p : Word) (s : State) : (errorCompletion c p s).inLen = s.inLen := rfl
@[simp] theorem errorCompletion_outLen (c : ErrCode) (p : Word) (s : State) : (errorCompletion c p s).outLen = 0#32 := rfl
@[simp] theorem errorCompletion_errPos (c : ErrCode) (p : Word) (s : State) : (errorCompletion c p s).errPos = p := rfl
@[simp] theorem errorCompletion_inBuf (c : ErrCode) (p : Word) (s : State) : (errorCompletion c p s).inBuf = s.inBuf := rfl
@[simp] theorem errorCompletion_outBuf (c : ErrCode) (p : Word) (s : State) : (errorCompletion c p s).outBuf = [] := rfl
@[simp] theorem errorCompletion_op (c : ErrCode) (p : Word) (s : State) : (errorCompletion c p s).op = .none := rfl
@[simp] theorem errorCompletion_ipos (c : ErrCode) (p : Word) (s : State) : (errorCompletion c p s).ipos = s.free 0 := rfl
@[simp] theorem errorCompletion_opos (c : ErrCode) (p : Word) (s : State) : (errorCompletion c p s).opos = s.free 1 := rfl
@[simp] theorem errorCompletion_eOpen (c : ErrCode) (p : Word) (s : State) : (errorCompletion c p s).eOpen = (s.free 2).getLsbD 0 := rfl
@[simp] theorem errorCompletion_eVal (c : ErrCode) (p : Word) (s : State) : (errorCompletion c p s).eVal = (s.free 3).setWidth 8 := rfl
@[simp] theorem errorCompletion_eRep (c : ErrCode) (p : Word) (s : State) : (errorCompletion c p s).eRep = (s.free 4).getLsbD 0 := rfl
@[simp] theorem errorCompletion_eCnt (c : ErrCode) (p : Word) (s : State) : (errorCompletion c p s).eCnt = (s.free 5).setWidth 8 := rfl
@[simp] theorem errorCompletion_dPrev (c : ErrCode) (p : Word) (s : State) : (errorCompletion c p s).dPrev = (s.free 6).setWidth 8 := rfl
@[simp] theorem errorCompletion_dArmed (c : ErrCode) (p : Word) (s : State) : (errorCompletion c p s).dArmed = (s.free 7).getLsbD 0 := rfl
@[simp] theorem errorCompletion_input (c : ErrCode) (p : Word) (s : State) : (errorCompletion c p s).input = s.input := rfl
@[simp] theorem errorCompletion_responses (c : ErrCode) (p : Word) (s : State) : (errorCompletion c p s).responses = s.responses := rfl
@[simp] theorem errorCompletion_draws (c : ErrCode) (p : Word) (s : State) : (errorCompletion c p s).draws = s.draws + 8 := rfl
@[simp] theorem errorCompletion_resets (c : ErrCode) (p : Word) (s : State) : (errorCompletion c p s).resets = s.resets := rfl

/-! ### `beginOperation` -/

@[simp] theorem beginOperation_inCap (o : Op) (s : State) : (beginOperation o s).inCap = s.inCap := rfl
@[simp] theorem beginOperation_outCap (o : Op) (s : State) : (beginOperation o s).outCap = s.outCap := rfl
@[simp] theorem beginOperation_busy (o : Op) (s : State) : (beginOperation o s).busy = true := rfl
@[simp] theorem beginOperation_done (o : Op) (s : State) : (beginOperation o s).done = false := rfl
@[simp] theorem beginOperation_err (o : Op) (s : State) : (beginOperation o s).err = .noError := rfl
@[simp] theorem beginOperation_inLen (o : Op) (s : State) : (beginOperation o s).inLen = s.inLen := rfl
@[simp] theorem beginOperation_outLen (o : Op) (s : State) : (beginOperation o s).outLen = s.free 0 := rfl
@[simp] theorem beginOperation_errPos (o : Op) (s : State) : (beginOperation o s).errPos = s.free 1 := rfl
@[simp] theorem beginOperation_inBuf (o : Op) (s : State) : (beginOperation o s).inBuf = s.inBuf := rfl
@[simp] theorem beginOperation_outBuf (o : Op) (s : State) : (beginOperation o s).outBuf = [] := rfl
@[simp] theorem beginOperation_op (o : Op) (s : State) : (beginOperation o s).op = o := rfl
@[simp] theorem beginOperation_ipos (o : Op) (s : State) : (beginOperation o s).ipos = 0#32 := rfl
@[simp] theorem beginOperation_opos (o : Op) (s : State) : (beginOperation o s).opos = 0#32 := rfl
@[simp] theorem beginOperation_eOpen (o : Op) (s : State) : (beginOperation o s).eOpen = s.eOpen := rfl
@[simp] theorem beginOperation_eVal (o : Op) (s : State) : (beginOperation o s).eVal = s.eVal := rfl
@[simp] theorem beginOperation_eRep (o : Op) (s : State) : (beginOperation o s).eRep = s.eRep := rfl
@[simp] theorem beginOperation_eCnt (o : Op) (s : State) : (beginOperation o s).eCnt = s.eCnt := rfl
@[simp] theorem beginOperation_dPrev (o : Op) (s : State) : (beginOperation o s).dPrev = s.dPrev := rfl
@[simp] theorem beginOperation_dArmed (o : Op) (s : State) : (beginOperation o s).dArmed = s.dArmed := rfl
@[simp] theorem beginOperation_input (o : Op) (s : State) : (beginOperation o s).input = s.input := rfl
@[simp] theorem beginOperation_responses (o : Op) (s : State) : (beginOperation o s).responses = s.responses := rfl
@[simp] theorem beginOperation_draws (o : Op) (s : State) : (beginOperation o s).draws = s.draws + 2 := rfl
@[simp] theorem beginOperation_resets (o : Op) (s : State) : (beginOperation o s).resets = s.resets := rfl

/-! ### `startEncode` -/

@[simp] theorem startEncode_inCap (s : State) : (startEncode s).inCap = s.inCap := rfl
@[simp] theorem startEncode_outCap (s : State) : (startEncode s).outCap = s.outCap := rfl
@[simp] theorem startEncode_busy (s : State) : (startEncode s).busy = true := rfl
@[simp] theorem startEncode_done (s : State) : (startEncode s).done = false := rfl
@[simp] theorem startEncode_err (s : State) : (startEncode s).err = .noError := rfl
@[simp] theorem startEncode_inLen (s : State) : (startEncode s).inLen = s.inLen := rfl
@[simp] theorem startEncode_outLen (s : State) : (startEncode s).outLen = s.free 0 := rfl
@[simp] theorem startEncode_errPos (s : State) : (startEncode s).errPos = s.free 1 := rfl
@[simp] theorem startEncode_inBuf (s : State) : (startEncode s).inBuf = s.inBuf := rfl
@[simp] theorem startEncode_outBuf (s : State) : (startEncode s).outBuf = [] := rfl
@[simp] theorem startEncode_op (s : State) : (startEncode s).op = .enc := rfl
@[simp] theorem startEncode_ipos (s : State) : (startEncode s).ipos = 0#32 := rfl
@[simp] theorem startEncode_opos (s : State) : (startEncode s).opos = 0#32 := rfl
@[simp] theorem startEncode_eOpen (s : State) : (startEncode s).eOpen = false := rfl
@[simp] theorem startEncode_eVal (s : State) : (startEncode s).eVal = s.eVal := rfl
@[simp] theorem startEncode_eRep (s : State) : (startEncode s).eRep = s.eRep := rfl
@[simp] theorem startEncode_eCnt (s : State) : (startEncode s).eCnt = s.eCnt := rfl
@[simp] theorem startEncode_dPrev (s : State) : (startEncode s).dPrev = s.dPrev := rfl
@[simp] theorem startEncode_dArmed (s : State) : (startEncode s).dArmed = s.dArmed := rfl
@[simp] theorem startEncode_input (s : State) : (startEncode s).input = s.input := rfl
@[simp] theorem startEncode_responses (s : State) : (startEncode s).responses = s.responses := rfl
@[simp] theorem startEncode_draws (s : State) : (startEncode s).draws = s.draws + 2 := rfl
@[simp] theorem startEncode_resets (s : State) : (startEncode s).resets = s.resets := rfl

/-! ### `openChunk` -/

@[simp] theorem openChunk_inCap (b : Byte) (s : State) : (openChunk b s).inCap = s.inCap := rfl
@[simp] theorem openChunk_outCap (b : Byte) (s : State) : (openChunk b s).outCap = s.outCap := rfl
@[simp] theorem openChunk_busy (b : Byte) (s : State) : (openChunk b s).busy = s.busy := rfl
@[simp] theorem openChunk_done (b : Byte) (s : State) : (openChunk b s).done = s.done := rfl
@[simp] theorem openChunk_err (b : Byte) (s : State) : (openChunk b s).err = s.err := rfl
@[simp] theorem openChunk_inLen (b : Byte) (s : State) : (openChunk b s).inLen = s.inLen := rfl
@[simp] theorem openChunk_outLen (b : Byte) (s : State) : (openChunk b s).outLen = s.outLen := rfl
@[simp] theorem openChunk_errPos (b : Byte) (s : State) : (openChunk b s).errPos = s.errPos := rfl
@[simp] theorem openChunk_inBuf (b : Byte) (s : State) : (openChunk b s).inBuf = s.inBuf := rfl
@[simp] theorem openChunk_outBuf (b : Byte) (s : State) : (openChunk b s).outBuf = s.outBuf := rfl
@[simp] theorem openChunk_op (b : Byte) (s : State) : (openChunk b s).op = s.op := rfl
@[simp] theorem openChunk_ipos (b : Byte) (s : State) : (openChunk b s).ipos = s.ipos := rfl
@[simp] theorem openChunk_opos (b : Byte) (s : State) : (openChunk b s).opos = s.opos := rfl
@[simp] theorem openChunk_eOpen (b : Byte) (s : State) : (openChunk b s).eOpen = true := rfl
@[simp] theorem openChunk_eVal (b : Byte) (s : State) : (openChunk b s).eVal = b := rfl
@[simp] theorem openChunk_eRep (b : Byte) (s : State) : (openChunk b s).eRep = false := rfl
@[simp] theorem openChunk_eCnt (b : Byte) (s : State) : (openChunk b s).eCnt = 0#8 := rfl
@[simp] theorem openChunk_dPrev (b : Byte) (s : State) : (openChunk b s).dPrev = s.dPrev := rfl
@[simp] theorem openChunk_dArmed (b : Byte) (s : State) : (openChunk b s).dArmed = s.dArmed := rfl
@[simp] theorem openChunk_input (b : Byte) (s : State) : (openChunk b s).input = s.input := rfl
@[simp] theorem openChunk_responses (b : Byte) (s : State) : (openChunk b s).responses = s.responses := rfl
@[simp] theorem openChunk_draws (b : Byte) (s : State) : (openChunk b s).draws = s.draws := rfl
@[simp] theorem openChunk_resets (b : Byte) (s : State) : (openChunk b s).resets = s.resets := rfl

/-! ### `applyReset` -/

@[simp] theorem applyReset_inCap (s : State) : (applyReset s).inCap = s.inCap := rfl
@[simp] theorem applyReset_outCap (s : State) : (applyReset s).outCap = s.outCap := rfl
@[simp] theorem applyReset_busy (s : State) : (applyReset s).busy = false := rfl
@[simp] theorem applyReset_done (s : State) : (applyReset s).done = false := rfl
@[simp] theorem applyReset_err (s : State) : (applyReset s).err = .noError := rfl
@[simp] theorem applyReset_inLen (s : State) : (applyReset s).inLen = 0#32 := rfl
@[simp] theorem applyReset_outLen (s : State) : (applyReset s).outLen = 0#32 := rfl
@[simp] theorem applyReset_errPos (s : State) : (applyReset s).errPos = 0#32 := rfl
@[simp] theorem applyReset_inBuf (s : State) : (applyReset s).inBuf = [] := rfl
@[simp] theorem applyReset_outBuf (s : State) : (applyReset s).outBuf = [] := rfl
@[simp] theorem applyReset_op (s : State) : (applyReset s).op = .none := rfl
@[simp] theorem applyReset_ipos (s : State) : (applyReset s).ipos = 0#32 := rfl
@[simp] theorem applyReset_opos (s : State) : (applyReset s).opos = 0#32 := rfl
@[simp] theorem applyReset_eOpen (s : State) : (applyReset s).eOpen = false := rfl
@[simp] theorem applyReset_eVal (s : State) : (applyReset s).eVal = 0#8 := rfl
@[simp] theorem applyReset_eRep (s : State) : (applyReset s).eRep = false := rfl
@[simp] theorem applyReset_eCnt (s : State) : (applyReset s).eCnt = 0#8 := rfl
@[simp] theorem applyReset_dPrev (s : State) : (applyReset s).dPrev = 0#8 := rfl
@[simp] theorem applyReset_dArmed (s : State) : (applyReset s).dArmed = false := rfl
@[simp] theorem applyReset_input (s : State) : (applyReset s).input = s.input := rfl
@[simp] theorem applyReset_responses (s : State) : (applyReset s).responses = s.responses := rfl
@[simp] theorem applyReset_draws (s : State) : (applyReset s).draws = s.draws := rfl
@[simp] theorem applyReset_resets (s : State) : (applyReset s).resets = s.resets + 1 := rfl

/-! ### Updates with a case in them: the fields no case touches -/

@[simp] theorem extendChunk_inCap (s : State) : (extendChunk s).inCap = s.inCap := by
  unfold extendChunk; split <;> rfl
@[simp] theorem extendChunk_outCap (s : State) : (extendChunk s).outCap = s.outCap := by
  unfold extendChunk; split <;> rfl
@[simp] theorem extendChunk_busy (s : State) : (extendChunk s).busy = s.busy := by
  unfold extendChunk; split <;> rfl
@[simp] theorem extendChunk_done (s : State) : (extendChunk s).done = s.done := by
  unfold extendChunk; split <;> rfl
@[simp] theorem extendChunk_err (s : State) : (extendChunk s).err = s.err := by
  unfold extendChunk; split <;> rfl
@[simp] theorem extendChunk_inLen (s : State) : (extendChunk s).inLen = s.inLen := by
  unfold extendChunk; split <;> rfl
@[simp] theorem extendChunk_outLen (s : State) : (extendChunk s).outLen = s.outLen := by
  unfold extendChunk; split <;> rfl
@[simp] theorem extendChunk_errPos (s : State) : (extendChunk s).errPos = s.errPos := by
  unfold extendChunk; split <;> rfl
@[simp] theorem extendChunk_inBuf (s : State) : (extendChunk s).inBuf = s.inBuf := by
  unfold extendChunk; split <;> rfl
@[simp] theorem extendChunk_outBuf (s : State) : (extendChunk s).outBuf = s.outBuf := by
  unfold extendChunk; split <;> rfl
@[simp] theorem extendChunk_op (s : State) : (extendChunk s).op = s.op := by
  unfold extendChunk; split <;> rfl
@[simp] theorem extendChunk_ipos (s : State) : (extendChunk s).ipos = s.ipos := by
  unfold extendChunk; split <;> rfl
@[simp] theorem extendChunk_opos (s : State) : (extendChunk s).opos = s.opos := by
  unfold extendChunk; split <;> rfl
@[simp] theorem extendChunk_eOpen (s : State) : (extendChunk s).eOpen = s.eOpen := by
  unfold extendChunk; split <;> rfl
@[simp] theorem extendChunk_eVal (s : State) : (extendChunk s).eVal = s.eVal := by
  unfold extendChunk; split <;> rfl
@[simp] theorem extendChunk_dPrev (s : State) : (extendChunk s).dPrev = s.dPrev := by
  unfold extendChunk; split <;> rfl
@[simp] theorem extendChunk_dArmed (s : State) : (extendChunk s).dArmed = s.dArmed := by
  unfold extendChunk; split <;> rfl
@[simp] theorem extendChunk_input (s : State) : (extendChunk s).input = s.input := by
  unfold extendChunk; split <;> rfl
@[simp] theorem extendChunk_responses (s : State) : (extendChunk s).responses = s.responses := by
  unfold extendChunk; split <;> rfl
@[simp] theorem extendChunk_draws (s : State) : (extendChunk s).draws = s.draws := by
  unfold extendChunk; split <;> rfl
@[simp] theorem extendChunk_resets (s : State) : (extendChunk s).resets = s.resets := by
  unfold extendChunk; split <;> rfl

@[simp] theorem startDecode_inCap (s : State) : (startDecode s).inCap = s.inCap := by
  unfold startDecode; split <;> rfl
@[simp] theorem startDecode_outCap (s : State) : (startDecode s).outCap = s.outCap := by
  unfold startDecode; split <;> rfl
@[simp] theorem startDecode_inLen (s : State) : (startDecode s).inLen = s.inLen := by
  unfold startDecode; split <;> rfl
@[simp] theorem startDecode_inBuf (s : State) : (startDecode s).inBuf = s.inBuf := by
  unfold startDecode; split <;> rfl
@[simp] theorem startDecode_eOpen (s : State) : (startDecode s).eOpen = s.eOpen := by
  unfold startDecode; split <;> rfl
@[simp] theorem startDecode_eVal (s : State) : (startDecode s).eVal = s.eVal := by
  unfold startDecode; split <;> rfl
@[simp] theorem startDecode_eRep (s : State) : (startDecode s).eRep = s.eRep := by
  unfold startDecode; split <;> rfl
@[simp] theorem startDecode_eCnt (s : State) : (startDecode s).eCnt = s.eCnt := by
  unfold startDecode; split <;> rfl
@[simp] theorem startDecode_input (s : State) : (startDecode s).input = s.input := by
  unfold startDecode; split <;> rfl
@[simp] theorem startDecode_responses (s : State) : (startDecode s).responses = s.responses := by
  unfold startDecode; split <;> rfl
@[simp] theorem startDecode_resets (s : State) : (startDecode s).resets = s.resets := by
  unfold startDecode; split <;> rfl

@[simp] theorem hostRead_inCap (w : Width) (o : Word) (s : State) : (hostRead w o s).inCap = s.inCap := by
  unfold hostRead; split <;> rfl
@[simp] theorem hostRead_outCap (w : Width) (o : Word) (s : State) : (hostRead w o s).outCap = s.outCap := by
  unfold hostRead; split <;> rfl
@[simp] theorem hostRead_busy (w : Width) (o : Word) (s : State) : (hostRead w o s).busy = s.busy := by
  unfold hostRead; split <;> rfl
@[simp] theorem hostRead_done (w : Width) (o : Word) (s : State) : (hostRead w o s).done = s.done := by
  unfold hostRead; split <;> rfl
@[simp] theorem hostRead_err (w : Width) (o : Word) (s : State) : (hostRead w o s).err = s.err := by
  unfold hostRead; split <;> rfl
@[simp] theorem hostRead_inLen (w : Width) (o : Word) (s : State) : (hostRead w o s).inLen = s.inLen := by
  unfold hostRead; split <;> rfl
@[simp] theorem hostRead_outLen (w : Width) (o : Word) (s : State) : (hostRead w o s).outLen = s.outLen := by
  unfold hostRead; split <;> rfl
@[simp] theorem hostRead_errPos (w : Width) (o : Word) (s : State) : (hostRead w o s).errPos = s.errPos := by
  unfold hostRead; split <;> rfl
@[simp] theorem hostRead_inBuf (w : Width) (o : Word) (s : State) : (hostRead w o s).inBuf = s.inBuf := by
  unfold hostRead; split <;> rfl
@[simp] theorem hostRead_outBuf (w : Width) (o : Word) (s : State) : (hostRead w o s).outBuf = s.outBuf := by
  unfold hostRead; split <;> rfl
@[simp] theorem hostRead_op (w : Width) (o : Word) (s : State) : (hostRead w o s).op = s.op := by
  unfold hostRead; split <;> rfl
@[simp] theorem hostRead_ipos (w : Width) (o : Word) (s : State) : (hostRead w o s).ipos = s.ipos := by
  unfold hostRead; split <;> rfl
@[simp] theorem hostRead_opos (w : Width) (o : Word) (s : State) : (hostRead w o s).opos = s.opos := by
  unfold hostRead; split <;> rfl
@[simp] theorem hostRead_eOpen (w : Width) (o : Word) (s : State) : (hostRead w o s).eOpen = s.eOpen := by
  unfold hostRead; split <;> rfl
@[simp] theorem hostRead_eVal (w : Width) (o : Word) (s : State) : (hostRead w o s).eVal = s.eVal := by
  unfold hostRead; split <;> rfl
@[simp] theorem hostRead_eRep (w : Width) (o : Word) (s : State) : (hostRead w o s).eRep = s.eRep := by
  unfold hostRead; split <;> rfl
@[simp] theorem hostRead_eCnt (w : Width) (o : Word) (s : State) : (hostRead w o s).eCnt = s.eCnt := by
  unfold hostRead; split <;> rfl
@[simp] theorem hostRead_dPrev (w : Width) (o : Word) (s : State) : (hostRead w o s).dPrev = s.dPrev := by
  unfold hostRead; split <;> rfl
@[simp] theorem hostRead_dArmed (w : Width) (o : Word) (s : State) : (hostRead w o s).dArmed = s.dArmed := by
  unfold hostRead; split <;> rfl
@[simp] theorem hostRead_input (w : Width) (o : Word) (s : State) : (hostRead w o s).input = s.input := by
  unfold hostRead; split <;> rfl
@[simp] theorem hostRead_resets (w : Width) (o : Word) (s : State) : (hostRead w o s).resets = s.resets := by
  unfold hostRead; split <;> rfl

@[simp] theorem hostWrite_inCap (w : Width) (o d : Word) (s : State) : (hostWrite w o d s).inCap = s.inCap := by
  unfold hostWrite writeRegister; repeat (first | rfl | split)
@[simp] theorem hostWrite_outCap (w : Width) (o d : Word) (s : State) : (hostWrite w o d s).outCap = s.outCap := by
  unfold hostWrite writeRegister; repeat (first | rfl | split)
@[simp] theorem hostWrite_busy (w : Width) (o d : Word) (s : State) : (hostWrite w o d s).busy = s.busy := by
  unfold hostWrite writeRegister; repeat (first | rfl | split)
@[simp] theorem hostWrite_done (w : Width) (o d : Word) (s : State) : (hostWrite w o d s).done = s.done := by
  unfold hostWrite writeRegister; repeat (first | rfl | split)
@[simp] theorem hostWrite_err (w : Width) (o d : Word) (s : State) : (hostWrite w o d s).err = s.err := by
  unfold hostWrite writeRegister; repeat (first | rfl | split)
@[simp] theorem hostWrite_outLen (w : Width) (o d : Word) (s : State) : (hostWrite w o d s).outLen = s.outLen := by
  unfold hostWrite writeRegister; repeat (first | rfl | split)
@[simp] theorem hostWrite_errPos (w : Width) (o d : Word) (s : State) : (hostWrite w o d s).errPos = s.errPos := by
  unfold hostWrite writeRegister; repeat (first | rfl | split)
@[simp] theorem hostWrite_outBuf (w : Width) (o d : Word) (s : State) : (hostWrite w o d s).outBuf = s.outBuf := by
  unfold hostWrite writeRegister; repeat (first | rfl | split)
@[simp] theorem hostWrite_op (w : Width) (o d : Word) (s : State) : (hostWrite w o d s).op = s.op := by
  unfold hostWrite writeRegister; repeat (first | rfl | split)
@[simp] theorem hostWrite_ipos (w : Width) (o d : Word) (s : State) : (hostWrite w o d s).ipos = s.ipos := by
  unfold hostWrite writeRegister; repeat (first | rfl | split)
@[simp] theorem hostWrite_opos (w : Width) (o d : Word) (s : State) : (hostWrite w o d s).opos = s.opos := by
  unfold hostWrite writeRegister; repeat (first | rfl | split)
@[simp] theorem hostWrite_eOpen (w : Width) (o d : Word) (s : State) : (hostWrite w o d s).eOpen = s.eOpen := by
  unfold hostWrite writeRegister; repeat (first | rfl | split)
@[simp] theorem hostWrite_eVal (w : Width) (o d : Word) (s : State) : (hostWrite w o d s).eVal = s.eVal := by
  unfold hostWrite writeRegister; repeat (first | rfl | split)
@[simp] theorem hostWrite_eRep (w : Width) (o d : Word) (s : State) : (hostWrite w o d s).eRep = s.eRep := by
  unfold hostWrite writeRegister; repeat (first | rfl | split)
@[simp] theorem hostWrite_eCnt (w : Width) (o d : Word) (s : State) : (hostWrite w o d s).eCnt = s.eCnt := by
  unfold hostWrite writeRegister; repeat (first | rfl | split)
@[simp] theorem hostWrite_dPrev (w : Width) (o d : Word) (s : State) : (hostWrite w o d s).dPrev = s.dPrev := by
  unfold hostWrite writeRegister; repeat (first | rfl | split)
@[simp] theorem hostWrite_dArmed (w : Width) (o d : Word) (s : State) : (hostWrite w o d s).dArmed = s.dArmed := by
  unfold hostWrite writeRegister; repeat (first | rfl | split)
@[simp] theorem hostWrite_input (w : Width) (o d : Word) (s : State) : (hostWrite w o d s).input = s.input := by
  unfold hostWrite writeRegister; repeat (first | rfl | split)
@[simp] theorem hostWrite_responses (w : Width) (o d : Word) (s : State) : (hostWrite w o d s).responses = s.responses := by
  unfold hostWrite writeRegister; repeat (first | rfl | split)
@[simp] theorem hostWrite_draws (w : Width) (o d : Word) (s : State) : (hostWrite w o d s).draws = s.draws := by
  unfold hostWrite writeRegister; repeat (first | rfl | split)
@[simp] theorem hostWrite_resets (w : Width) (o d : Word) (s : State) : (hostWrite w o d s).resets = s.resets := by
  unfold hostWrite writeRegister; repeat (first | rfl | split)

end Sys2Proof.Machine
end

