-- ==== Sys2Proof/Laws/Ops.lean ====
section
/-! SUPPORT. One lemma per shared operation: everything it can do. Callers cite these instead of unfolding
the operation. -/

namespace Sys2Proof.Machine

/-! ### Put -/

/-- The state after Put has appended bytes (42_command.md R166). -/
def State.appended (s : State) (bs : List Byte) : State :=
  { s with outBuf := Memory.setAll s.outBuf s.opos.toNat bs,
           opos := BitVec.ofNat 32 (s.opos.toNat + bs.length) }

@[simp] theorem State.appended_nil (s : State) : s.appended [] = s := by
  simp [State.appended]

theorem opos_succ {s : State} (h : s.opos.toNat < s.outCap.toNat) :
    (s.opos + 1#32).toNat = s.opos.toNat + 1 := by
  have := s.outCap.isLt
  rw [BitVec.toNat_add]; simp; omega

/-- Put below capacity appends its byte; at capacity it raises OVERFLOW at the scan index. -/
theorem put_spec (v : Byte) {s : State} (h : s.opos.toNat ≤ s.outCap.toNat) :
    put v s = if s.opos.toNat < s.outCap.toNat then .ok (s.appended [v])
      else .error ⟨.overflow, s.ipos⟩ := by
  unfold put
  by_cases hlt : s.opos.toNat < s.outCap.toNat
  · have hne : s.opos ≠ s.outCap := fun e => by rw [e] at hlt; omega
    have hs := opos_succ hlt
    rw [if_neg hne, if_pos hlt]
    simp only [State.appended, Memory.setAll, List.length_singleton, ← hs, BitVec.ofNat_toNat,
      BitVec.setWidth_eq]
  · have he : s.opos = s.outCap := BitVec.eq_of_toNat_eq (by omega)
    rw [if_pos he, if_neg hlt]

@[simp] theorem State.appended_outCap (s : State) (bs : List Byte) : (s.appended bs).outCap = s.outCap := rfl
@[simp] theorem State.appended_ipos (s : State) (bs : List Byte) : (s.appended bs).ipos = s.ipos := rfl

theorem State.appended_opos {s : State} {bs : List Byte} (h : s.opos.toNat + bs.length ≤ s.outCap.toNat) :
    (s.appended bs).opos.toNat = s.opos.toNat + bs.length := by
  have := s.outCap.isLt
  simp [State.appended]; omega

theorem State.appended_appended {s : State} {bs : List Byte} (cs : List Byte)
    (h : s.opos.toNat + bs.length ≤ s.outCap.toNat) :
    (s.appended bs).appended cs = s.appended (bs ++ cs) := by
  have e := State.appended_opos h
  show State.appended _ cs = _
  unfold State.appended at e ⊢
  simp only [Memory.setAll_append, List.length_append] at e ⊢
  rw [e, Nat.add_assoc]

/-- Puts that fit append their bytes; otherwise the first that does not fit raises OVERFLOW at the scan
index (42_command.md R166). -/
theorem putAll_spec (bs : List Byte) {s : State} (h : s.opos.toNat ≤ s.outCap.toNat) :
    putAll bs s = if s.opos.toNat + bs.length ≤ s.outCap.toNat then .ok (s.appended bs)
      else .error ⟨.overflow, s.ipos⟩ := by
  induction bs generalizing s with
  | nil => simp [putAll, h]
  | cons b bs ih =>
    rw [putAll, put_spec b h]
    by_cases hlt : s.opos.toNat < s.outCap.toNat
    · have h1 : s.opos.toNat + [b].length ≤ s.outCap.toNat := by simp; omega
      have h2 := State.appended_opos h1
      simp only [List.length_singleton] at h2
      rw [if_pos hlt, Except.bind, ih (by simp only [State.appended_outCap]; omega),
        State.appended_outCap, State.appended_ipos, h2, State.appended_appended bs h1,
        List.length_cons, show s.opos.toNat + 1 + bs.length = s.opos.toNat + (bs.length + 1) by omega]
      rfl
    · rw [if_neg hlt, if_neg (by simp; omega)]
      rfl

/-! ### Settling -/

@[simp] theorem settle_ok (s t : State) : settle s (.ok t) = t := rfl
@[simp] theorem settle_error (s : State) (r : Raise) :
    settle s (.error r) = errorCompletion r.code r.pos s := rfl

/-- `settle` of a step followed by an update that cannot raise. -/
theorem settle_cases (s : State) (r : Except Raise State) :
    (∃ t, r = .ok t ∧ settle s r = t) ∨
      (∃ e, r = .error e ∧ settle s r = errorCompletion e.code e.pos s) := by
  cases r with
  | ok t => exact .inl ⟨t, rfl, rfl⟩
  | error e => exact .inr ⟨e, rfl, rfl⟩

/-! ### STATUS -/

@[simp] theorem statusWord_completeOk (s : State) : (completeOk s).statusWord = 0x00000002#32 := by
  simp [State.statusWord, ErrCode.code]

/-- `0x2 | (code << 2)` (10_state.md R25). -/
theorem statusWord_errorCompletion (c : ErrCode) (p : Word) (s : State) :
    (errorCompletion c p s).statusWord =
      BitVec.ofNat 32 (2 + 4 * c.code.toNat) := by
  cases c <;> simp [State.statusWord, ErrCode.code]

@[simp] theorem statusWord_beginOperation (o : Op) (s : State) :
    (beginOperation o s).statusWord = 0x00000001#32 := by
  simp [State.statusWord, ErrCode.code]

@[simp] theorem outReadable_completeOk (s : State) : (completeOk s).outReadable = true := rfl

/-! ### The sentinel -/

/-- The one observable property of the sentinel (41_decode.md R131). -/
theorem sentinel_ne (b : Byte) : sentinel b ≠ b := by
  revert b; decide

/-! ### Launch -/

/-- A launch is ignored, rejected for its length, or a start (42_command.md R160). -/
theorem launch_cases (start : State → State) (s : State) :
    (s.busy = true ∧ launch start s = s) ∨
      (s.busy = false ∧ s.inCap < s.inLen ∧ launch start s = errorCompletion .badLen 0#32 s) ∨
      (s.busy = false ∧ ¬ s.inCap < s.inLen ∧ launch start s = start s) := by
  unfold launch
  cases hb : s.busy
  · by_cases h : s.inCap < s.inLen
    · exact .inr (.inl ⟨rfl, h, by simp [h]⟩)
    · exact .inr (.inr ⟨rfl, h, by simp [h]⟩)
  · exact .inl ⟨rfl, by simp⟩

end Sys2Proof.Machine
end

