-- ==== Sys2Proof/Laws/Step.lean ====
section
/-! SUPPORT. One step, case by case: which turn it is and what the turn can do. Proofs about every step cite
these instead of unfolding `step`. -/

namespace Sys2Proof.Machine

@[simp] theorem runSteps_zero (s : State) : runSteps 0 s = .next s := rfl

/-- A run of one more step is that step, then the rest. -/
theorem runSteps_succ {s t : State} (k : Nat) (h : step s = .next t) :
    runSteps (k + 1) s = runSteps k t := by
  simp only [runSteps, h]

/-- `runSteps` is the host's run of the machine. -/
theorem runSteps_eq_core_run (k : Nat) (s : State) : runSteps k s = Sys2Proof.core.run k s := by
  induction k generalizing s with
  | zero => rfl
  | succ k ih =>
    have e : Sys2Proof.core.step s = step s := rfl
    cases h : step s with
    | next t =>
      rw [runSteps_succ k h, ih t]
      simp only [Host.Core.run, e.trans h]; rfl
    | fault r => simp only [runSteps, Host.Core.run, e.trans h, h]; rfl
    | refused r => simp only [runSteps, Host.Core.run, e.trans h, h]; rfl

/-! ### Whose turn it is -/

theorem step_nil {s : State} (h : s.input = []) : step s = engineTurn s := by
  simp [step, turn, h]

theorem step_cons {s : State} {e : Event} {rest : List Event} (h : s.input = e :: rest) :
    step s = eventTurn e (s.withInput rest) := by
  simp [step, turn, h]

@[simp] theorem eventTurn_engine (s : State) : eventTurn .engine s = engineTurn s := rfl
@[simp] theorem eventTurn_reset (s : State) : eventTurn .reset s = .next (applyReset s) := rfl
@[simp] theorem eventTurn_access (a : Access) (s : State) : eventTurn (.access a) s = accessTurn a s := rfl

/-- A CMD write runs the command it decodes to (42_command.md R160). -/
theorem accessTurn_command (w : Word) (s : State) :
    accessTurn (.write .w32 0x004#32 w) s = exec (decodeCommand w) s := rfl

/-- Every other access is the port's. -/
theorem accessTurn_other {a : Access} (h : commandOf a = none) (s : State) :
    accessTurn a s = .next (hostAccess a s) := by
  simp [accessTurn, h]

/-- An access is a CMD write or it is not. -/
theorem commandOf_cases (a : Access) :
    (∃ w, a = .write .w32 0x004#32 w) ∨ commandOf a = none := by
  cases a with
  | read w o => exact .inr rfl
  | write w o d =>
    cases w
    · exact .inr rfl
    · exact .inr rfl
    · by_cases h : o = 0x004#32
      · exact .inl ⟨d, by rw [h]⟩
      · exact .inr (by simp [commandOf, h])

/-! ### What an instruction does -/

@[simp] theorem exec_nop (g : BitVec 30) (s : State) : exec (.nop g) s = .next s := rfl
@[simp] theorem exec_encode (g : BitVec 30) (s : State) :
    exec (.encode g) s = .next (launch startEncode s) := rfl
@[simp] theorem exec_decode (g : BitVec 30) (s : State) :
    exec (.decode g) s = .next (launch startDecode s) := rfl
@[simp] theorem exec_reserved (g : BitVec 30) (s : State) :
    exec (.reserved g) s = .next (if s.busy then s else errorCompletion .badCmd 0#32 s) := rfl
@[simp] theorem exec_lit (v : Byte) (s : State) :
    exec (.lit v) s = .next (settle s (literalStep v s)) := rfl
@[simp] theorem exec_run (v len : Byte) (s : State) :
    exec (.run v len) s = .next (settle s ((literalStep v s).bind (markerStep v len))) := rfl

/-- Every instruction answers a next state. -/
theorem exec_next (i : Instr) (s : State) : ∃ t, exec i s = .next t := by
  cases i <;> exact ⟨_, rfl⟩

/-- What a CMD write can do: nothing, an error completion with no BUSY phase, or a start (42_command.md
R160). -/
theorem exec_command_cases (w : Word) (s : State) :
    exec (decodeCommand w) s = .next s ∨
      (s.busy = false ∧ ∃ c, c ≠ .noError ∧ exec (decodeCommand w) s = .next (errorCompletion c 0#32 s)) ∨
      (s.busy = false ∧ ¬ s.inCap < s.inLen ∧
        (exec (decodeCommand w) s = .next (startEncode s) ∨
          exec (decodeCommand w) s = .next (startDecode s))) := by
  unfold decodeCommand
  split
  · exact .inl rfl
  · rcases launch_cases startEncode s with ⟨_, h⟩ | ⟨hb, _, h⟩ | ⟨hb, hl, h⟩
    · exact .inl (by simp [h])
    · exact .inr (.inl ⟨hb, .badLen, by decide, by simp [h]⟩)
    · exact .inr (.inr ⟨hb, hl, .inl (by simp [h])⟩)
  · rcases launch_cases startDecode s with ⟨_, h⟩ | ⟨hb, _, h⟩ | ⟨hb, hl, h⟩
    · exact .inl (by simp [h])
    · exact .inr (.inl ⟨hb, .badLen, by decide, by simp [h]⟩)
    · exact .inr (.inr ⟨hb, hl, .inr (by simp [h])⟩)
  · cases hb : s.busy
    · exact .inr (.inl ⟨rfl, .badCmd, by decide, by simp [hb]⟩)
    · exact .inl (by simp [hb])

/-- The DECODE start: completion at once for an empty input, else a running operation (41_decode.md
R132). -/
theorem startDecode_empty {s : State} (h : s.inLen = 0#32) :
    startDecode s = completeOk (beginOperation .dec s) := by simp [startDecode, h]

theorem startDecode_nonempty {s : State} (h : s.inLen ≠ 0#32) :
    startDecode s =
      { beginOperation .dec s with dPrev := sentinel (s.inByte 0), dArmed := true } := by
  simp [startDecode, h]

/-! ### The decoder's steps -/

/-- The state after a literal step that fits (41_decode.md R134). -/
def State.afterLiteral (s : State) (c : Byte) : State :=
  { s.appended [c] with dPrev := c, dArmed := true, ipos := s.ipos + 1#32 }

/-- The state after a marker step that fits (41_decode.md R135). -/
def State.afterMarker (s : State) (c len : Byte) : State :=
  { s.appended (List.replicate (len.toNat + 1) c) with
      dPrev := c, dArmed := false, ipos := s.ipos + 2#32 }

theorem literalStep_spec (c : Byte) {s : State} (h : s.opos.toNat ≤ s.outCap.toNat) :
    literalStep c s = if s.opos.toNat < s.outCap.toNat then .ok (s.afterLiteral c)
      else .error ⟨.overflow, s.ipos⟩ := by
  unfold literalStep
  rw [put_spec c h]
  split <;> rfl

theorem markerStep_spec (c len : Byte) {s : State} (h : s.opos.toNat ≤ s.outCap.toNat) :
    markerStep c len s =
      if s.opos.toNat + (len.toNat + 1) ≤ s.outCap.toNat then .ok (s.afterMarker c len)
      else .error ⟨.overflow, s.ipos⟩ := by
  unfold markerStep markerStepWith
  rw [putAll_spec _ h, List.length_replicate]
  split <;> rfl

theorem markerTurn_spec {s : State} (h : s.opos.toNat ≤ s.outCap.toNat) :
    markerTurn s =
      if s.ipos.toNat + 1 = s.inLen.toNat then .error ⟨.malformed, s.ipos⟩
      else if s.opos.toNat + ((s.inByte (s.ipos.toNat + 1)).toNat + 1) ≤ s.outCap.toNat then
        .ok (s.afterMarker s.currentByte (s.inByte (s.ipos.toNat + 1)))
      else .error ⟨.overflow, s.ipos⟩ := by
  unfold markerTurn
  rw [markerStep_spec _ _ h]

/-! ### Scan and output indices -/

theorem ipos_add {s : State} {k : Nat} (h : s.ipos.toNat + k ≤ s.inLen.toNat) :
    (s.ipos + BitVec.ofNat 32 k).toNat = s.ipos.toNat + k := by
  have := s.inLen.isLt
  rw [BitVec.toNat_add, BitVec.toNat_ofNat]; omega

theorem opos_ofNat {s : State} {k : Nat} (h : k ≤ s.outCap.toNat) :
    (BitVec.ofNat 32 k).toNat = k := by
  have := s.outCap.isLt
  rw [BitVec.toNat_ofNat]; omega

end Sys2Proof.Machine
end

