-- ==== Sys2Proof/Laws/HostPort.lean ====
section
/-! SUPPORT. The host port: where an offset falls, and what a read or a write can do. -/

namespace Sys2Proof.Machine

/-- An offset below 0x1000 is in the register window (20_memory.md R50). -/
theorem region_register {s : State} {a : Word} (h : a.toNat < 0x1000) :
    s.region a = .register a.toNat := by
  simp [State.region, h]

/-- The IN window (20_memory.md R50). -/
theorem region_in {s : State} {i : Nat} (hc : s.legalCaps) (h : i < s.inCap.toNat) :
    s.region (BitVec.ofNat 32 (0x40000000 + i)) = .inByte i := by
  have := hc.1
  have e : (BitVec.ofNat 32 (0x40000000 + i)).toNat = 0x40000000 + i := by
    rw [BitVec.toNat_ofNat]; omega
  unfold State.region
  simp only [e, inBase]
  rw [if_neg (by omega), if_pos (by omega), Nat.add_sub_cancel_left]

/-- The OUT window (20_memory.md R50). -/
theorem region_out {s : State} {i : Nat} (hc : s.legalCaps) (h : i < s.outCap.toNat) :
    s.region (BitVec.ofNat 32 (0x80000000 + i)) = .outByte i := by
  have := hc.1
  have := hc.2
  have e : (BitVec.ofNat 32 (0x80000000 + i)).toNat = 0x80000000 + i := by
    rw [BitVec.toNat_ofNat]; omega
  unfold State.region
  simp only [e, inBase, outBase]
  rw [if_neg (by omega), if_neg (by omega), if_pos (by omega), Nat.add_sub_cancel_left]

/-- No byte of OUT is readable unless the last command completed without error (20_memory.md R53).
-/
theorem readOut_any {s : State} (h : s.outReadable = false) (j : Nat) : readOut s j = .any := by
  simp [readOut, h]

/-- While BUSY, OUT_LEN, ERR_POS and OUT read any value. -/
theorem reads_any_while_busy {t : State} (h1 : t.busy = true) : readPort t .w32 0x010#32 = .any ∧
    readPort t .w32 0x014#32 = .any ∧ (∀ j, readOut t j = .any) := by
  refine ⟨?_, ?_, readOut_any (by simp [State.outReadable, h1])⟩
  · have : readPort t .w32 0x010#32 = if t.busy then .any else .word t.outLen := rfl
    simp [this, h1]
  · have : readPort t .w32 0x014#32 = if t.busy then .any else .word t.errPos := rfl
    simp [this, h1]

/-- Registers at 0x020 and above read 0 (10_state.md R31). -/
theorem readRegister_reserved {s : State} {a : Nat} (h : 0x20 ≤ a) :
    readRegister s a = .word 0#32 := by
  unfold readRegister; split <;> first | omega | rfl

/-- A read changes only what the host has read and the free-value counter (20_memory.md R58). -/
theorem hostRead_form (w : Width) (o : Word) (s : State) : ∃ v d,
    hostRead w o s = {s with responses := v :: s.responses, draws := d} := by
  unfold hostRead; split <;> exact ⟨_, _, rfl⟩

/-- What an access that is not a command does: a read, nothing, a new IN_LEN, or one byte of IN. -/
theorem hostAccess_cases (a : Access) (s : State) :
   (∃ w o, a = .read w o ∧ hostAccess a s = hostRead w o s) ∨
   (hostAccess a s = s) ∨ (s.busy = false ∧ ∃ v, a = .write .w32 0xC#32 v ∧
       hostAccess a s = {s with inLen := v}) ∨
   (s.busy = false ∧ ∃ i v, i < s.inCap.toNat ∧ hostAccess a s =
       {s with inBuf := Memory.set s.inBuf i v}) := by
  cases a with
  | read w o => exact .inl ⟨w, o, rfl, rfl⟩
  | write w o d =>
    refine .inr ?_
    simp only [hostAccess, hostWrite]
    split
    · next a ha =>
      have ha' : a = o.toNat ∧ o.toNat < 0x1000 := by
        unfold State.region at ha
        simp only at ha
        split at ha
        · cases ha; exact ⟨rfl, by assumption⟩
        · split at ha <;> [cases ha; (split at ha <;> cases ha)]
      split
      · next hr =>
        simp only [registerAccess, Bool.and_eq_true, beq_iff_eq] at hr
        unfold writeRegister
        split
        · cases hb : s.busy
          · refine .inr (.inl ⟨rfl, d, ?_, by simp⟩)
            have : o = 0xC#32 := BitVec.eq_of_toNat_eq ha'.1.symm
            rw [this, hr.1]
          · exact .inl (by simp)
        · exact .inl rfl
      · exact .inl rfl
    · next i hi =>
      have ha' : i < s.inCap.toNat := by
        unfold State.region at hi
        simp only at hi
        split at hi
        · cases hi
        · split at hi
          · next hh => injection hi with hi; unfold inBase at *; omega
          · (split at hi <;> cases hi)
      split
      · next h => exact .inr (.inr ⟨h.2, i, _, ha', rfl⟩)
      · exact .inl rfl
    · exact .inl rfl
    · exact .inl rfl

/-- A write of another width or to another offset is no command. -/
theorem commandOf_ne {w : Width} {a d : Word} (h : w ≠ .w32 ∨
    a ≠ 0x004#32) : commandOf (.write w a d) = none := by
  cases w
  · rfl
  · rfl
  · simpa [commandOf] using h

/-- A step that takes a write which is no command. -/
theorem step_write {s : State} {w : Width} {a d : Word} {rest : List Event} (h :
    s.input = .access (.write w a d) :: rest)
   (hn : w ≠ .w32 ∨ a ≠ 0x004#32) : step s = .next (hostWrite w a d (s.withInput rest)) := by
  rw [step_cons h, eventTurn_access, accessTurn_other (commandOf_ne hn)]; rfl

/-- A write to the register window. -/
theorem hostWrite_register {s : State} {w : Width} {a d : Word} (h : a.toNat < 0x1000) :
   hostWrite w a d s = if registerAccess w a.toNat then writeRegister s a.toNat d else s := by
  simp [hostWrite, region_register h]

/-- Only IN_LEN and CMD take writes (10_state.md R21). -/
theorem writeRegister_other {s : State} {a : Nat} {d : Word} (h : a ≠ 0xC) :
    writeRegister s a d = s := by
  unfold writeRegister; split
  · exact absurd rfl h
  · rfl

end Sys2Proof.Machine
end

