-- ==== Sys2Proof/Laws/Engine.lean ====
section
/-! SUPPORT. One step of an operation: what it keeps, how it ends, and what its parts compute. -/

namespace Sys2Proof.Machine

/-- The fields of the STATUS word (10_state.md R24). -/
theorem status_fields (s : State) : s.statusWord.getLsbD 0 = s.busy ∧
    s.statusWord.getLsbD 1 = s.done ∧
    s.statusWord.extractLsb' 2 3 = s.err.code ∧ s.statusWord.extractLsb' 5 27 = 0#27 := by
  unfold State.statusWord
  cases s.busy <;> cases s.done <;> cases s.err <;> simp [ErrCode.code]

/-- STATUS = 0 says all its fields are 0. -/
theorem status_zero {s : State} (h : s.statusWord = 0#32) : s.busy = false ∧ s.done = false ∧
    s.err = .noError := by
  obtain ⟨a, b, c, _⟩ := status_fields s
  rw [h] at a b c
  refine ⟨by simpa using a.symm, by simpa using b.symm, ?_⟩
  cases e : s.err <;> simp [e, ErrCode.code] at c <;> rfl

/-- The STATUS word depends on three fields only. -/
theorem statusWord_congr {s t : State} (h1 : t.busy = s.busy) (h2 : t.done = s.done) (h3 :
    t.err = s.err) : t.statusWord = s.statusWord := by
  simp [State.statusWord, h1, h2, h3]

/-- STATUS of a running operation (42_command.md R164). -/
theorem statusWord_running {t : State} (h1 : t.busy = true) (h2 : t.done = false) (h3 :
    t.err = .noError) : t.statusWord = 0x00000001#32 := by
  simp [State.statusWord, h1, h2, h3, ErrCode.code]

/-- STATUS after an error completion, for a code given as a number. -/
theorem statusWord_error {c p} {s : State} {w : Word} (h :
    BitVec.ofNat 32 (2 + 4 * c.code.toNat) = w) : (errorCompletion c p s).statusWord = w := by
  rw [statusWord_errorCompletion, h]

/-- A step, by whose turn it is. Proofs about every step begin with this. -/
theorem step_cases {s t : State} (h : step s = .next t) :
   (s.input = [] ∧ engineTurn s = .next t) ∨ ∃ rest, (s.input = .engine :: rest ∧
       engineTurn (s.withInput rest) = .next t) ∨
    (s.input = .reset :: rest ∧ t = applyReset (s.withInput rest)) ∨
    (∃ w, s.input = .access (.write .w32 0x004#32 w) :: rest ∧
        exec (decodeCommand w) (s.withInput rest) = .next t) ∨
    (∃ a, commandOf a = none ∧ s.input = .access a :: rest ∧ t = hostAccess a (s.withInput rest)) :=
        by
  cases hi : s.input with
  | nil => exact .inl ⟨rfl, by rwa [step_nil hi] at h⟩
  | cons e rest =>
    rw [step_cons hi] at h
    refine .inr ⟨rest, ?_⟩
    cases e with
    | engine => exact .inl ⟨rfl, h⟩
    | reset => cases h; exact .inr (.inl ⟨rfl, rfl⟩)
    | access a =>
      rcases commandOf_cases a with ⟨w, rfl⟩ | hn
      · exact .inr (.inr (.inl ⟨w, rfl, h⟩))
      · rw [eventTurn_access, accessTurn_other hn] at h
        cases h
        exact .inr (.inr (.inr ⟨a, hn, rfl, rfl⟩))

/-- What no engine step and no command changes. -/
structure Keeps (s t : State) : Prop where
  same : SameInput s t
  input : t.input = s.input

theorem Keeps.refl (s : State) : Keeps s s := ⟨⟨rfl, rfl, rfl, rfl, rfl, rfl⟩, rfl⟩

theorem Keeps.trans {s t u : State} (h : Keeps s t) (g : Keeps t u) : Keeps s u := by
  obtain ⟨⟨a1, a2, a3, a4, a5, a6⟩, a7⟩ := h
  obtain ⟨⟨b1, b2, b3, b4, b5, b6⟩, b7⟩ := g
  exact ⟨⟨b1.trans a1, b2.trans a2, b3.trans a3, b4.trans a4, b5.trans a5, b6.trans a6⟩,
      b7.trans a7⟩

theorem keeps_error (c p) (s : State) : Keeps s (errorCompletion c p s) :=
    ⟨⟨rfl, rfl, rfl, rfl, rfl, rfl⟩, rfl⟩

theorem keeps_complete (s : State) : Keeps s (completeOk s) := ⟨⟨rfl, rfl, rfl, rfl, rfl, rfl⟩, rfl⟩

theorem startDecode_keeps (s : State) : Keeps s (startDecode s) := by
  unfold startDecode; split <;> exact ⟨⟨rfl, rfl, rfl, rfl, rfl, rfl⟩, rfl⟩

theorem startEncode_keeps (s : State) : Keeps s (startEncode s) :=
    ⟨⟨rfl, rfl, rfl, rfl, rfl, rfl⟩, rfl⟩

theorem afterLiteral_keeps (s : State) (c) : Keeps s (s.afterLiteral c) :=
    ⟨⟨rfl, rfl, rfl, rfl, rfl, rfl⟩, rfl⟩

/-- What a step inside an operation keeps when it succeeds, and that its errors have a code. -/
def Steady (s : State) (r : Except Raise State) : Prop := (∀ t, r = .ok t → Keeps s t ∧
    t.busy = s.busy ∧ t.done = s.done ∧ t.err = s.err ∧ t.op = s.op ∧ t.outLen = s.outLen ∧
        t.errPos = s.errPos ∧ t.draws = s.draws) ∧ ∀ e, r = .error e → e.code ≠ .noError

theorem Steady.bind {s : State} {r : Except Raise State} {f : State → Except Raise State} (h :
    Steady s r) (g : ∀ t, Steady t (f t)) : Steady s (r.bind f) := by
  cases r with
  | error e => exact ⟨fun t ht =>
      by simp [Except.bind] at ht, fun e' he => h.2 e' (by simpa [Except.bind] using he)⟩
  | ok u =>
    obtain ⟨k, h1, h2, h3, h4, h5, h6, h7⟩ := h.1 u rfl
    refine ⟨fun t ht => ?_, fun e he => (g u).2 e (by simpa [Except.bind] using he)⟩
    obtain ⟨k', h1', h2', h3', h4', h5', h6', h7'⟩ := (g u).1 t (by simpa [Except.bind] using ht)
    exact ⟨k.trans k', h1'.trans h1, h2'.trans h2, h3'.trans h3, h4'.trans h4, h5'.trans h5,
        h6'.trans h6, h7'.trans h7⟩

theorem Steady.ok {s : State} : Steady s (.ok s) := ⟨fun t ht =>
    by cases ht; exact ⟨.refl _, rfl, rfl, rfl, rfl, rfl, rfl, rfl⟩, fun e he => by cases he⟩

theorem steady_put (v) (s : State) : Steady s (put v s) := by
  unfold put; split
  · refine ⟨?_, ?_⟩
    · intro t ht; cases ht
    · intro e he; cases he; simp
  · refine ⟨fun t ht =>
      by
        cases ht
        exact ⟨⟨⟨rfl, rfl, rfl, rfl, rfl, rfl⟩, rfl⟩, rfl, rfl, rfl, rfl, rfl, rfl, rfl⟩,
      fun e he => by cases he⟩

theorem steady_putAll (vs) (s : State) : Steady s (putAll vs s) := by
  induction vs generalizing s with
  | nil => exact .ok
  | cons v vs ih => exact (steady_put v s).bind ih

theorem steady_ok_of (s : State) (t : State) (h : Keeps s t ∧ t.busy = s.busy ∧ t.done = s.done ∧
    t.err = s.err ∧ t.op = s.op ∧ t.outLen = s.outLen ∧ t.errPos = s.errPos ∧
        t.draws = s.draws) : Steady s (.ok t) :=
  ⟨fun t' ht => by cases ht; exact h, fun e he => by cases he⟩

theorem steady_literal (c) (s : State) : Steady s (literalStep c s) :=
  (steady_put c s).bind fun _ => steady_ok_of _ _ ⟨⟨⟨rfl, rfl, rfl, rfl, rfl, rfl⟩, rfl⟩, rfl, rfl,
      rfl, rfl, rfl, rfl, rfl⟩

theorem steady_marker (c l) (s : State) : Steady s (markerStep c l s) :=
  (steady_putAll _ s).bind fun _ => steady_ok_of _ _ ⟨⟨⟨rfl, rfl, rfl, rfl, rfl, rfl⟩, rfl⟩, rfl,
      rfl, rfl, rfl, rfl, rfl, rfl⟩

theorem steady_markerTurn (s : State) : Steady s (markerTurn s) := by
  unfold markerTurn; split
  · refine ⟨?_, ?_⟩
    · intro t ht; cases ht
    · intro e he; cases he; simp
  · exact steady_marker ..

theorem steady_encodeStep (s : State) : Steady s (encodeStep s) := by
  refine Steady.bind ?_ fun t => steady_ok_of _ _ ⟨⟨⟨rfl, rfl, rfl, rfl, rfl, rfl⟩, rfl⟩, rfl, rfl,
      rfl, rfl, rfl, rfl, rfl⟩
  unfold encodeByte; split
  · exact steady_ok_of _ _ ⟨⟨⟨rfl, rfl, rfl, rfl, rfl, rfl⟩, rfl⟩, rfl, rfl, rfl, rfl, rfl, rfl,
      rfl⟩
  · split
    · refine steady_ok_of _ _ ⟨⟨⟨?_, ?_, ?_, ?_, ?_, ?_⟩, ?_⟩, ?_, ?_, ?_, ?_, ?_, ?_, ?_⟩ <;> simp
    · exact (steady_putAll _ s).bind fun t => steady_ok_of _ _ ⟨⟨⟨rfl, rfl, rfl, rfl, rfl, rfl⟩,
        rfl⟩, rfl, rfl, rfl, rfl, rfl, rfl, rfl⟩

/-- The end of an engine step: it went on, or it is an error completion. -/
theorem settle_steady {s : State} {r} (h : Steady s r) : (∃ t, r = .ok t ∧ settle s r = t ∧
    Keeps s t ∧ t.busy = s.busy ∧ t.done = s.done ∧ t.err = s.err ∧ t.op = s.op ∧
        t.outLen = s.outLen ∧ t.errPos = s.errPos ∧ t.draws = s.draws) ∨ ∃ c p, c ≠ .noError ∧
            r = .error ⟨c, p⟩ ∧ settle s r = errorCompletion c p s := by
  cases r with
  | ok t => exact .inl ⟨t, rfl, rfl, h.1 t rfl⟩
  | error e => exact .inr ⟨e.code, e.pos, h.2 e rfl, rfl, rfl⟩

/-- An engine turn goes on, completes without error, or completes with one. -/
theorem engineTurn_cases {s t : State} (h : engineTurn s = .next t) :
   (Keeps s t ∧ t.busy = s.busy ∧ t.done = s.done ∧ t.err = s.err ∧ t.op = s.op ∧
       t.outLen = s.outLen ∧ t.errPos = s.errPos ∧ t.draws = s.draws) ∨
   (∃ u, Keeps s u ∧ t = completeOk u) ∨ (∃ c p, c ≠ .noError ∧ t = errorCompletion c p s) := by
  unfold engineTurn at h
  split at h
  · cases h; exact .inl ⟨.refl _, rfl, rfl, rfl, rfl, rfl, rfl, rfl⟩
  · unfold encodeTurn at h
    split at h
    · cases h
      rcases settle_steady (steady_encodeStep s) with ⟨t, _, e, k⟩ | ⟨c, p, hc, _, e⟩
      · rw [e]; exact .inl k
      · exact .inr (.inr ⟨c, p, hc, e⟩)
    · split at h
      · cases h
        unfold encodeFinish
        have : Steady s (if s.eOpen then emitChunk s else .ok s) := by
          split
          · exact steady_putAll _ _
          · exact .ok
        generalize (if s.eOpen then emitChunk s else .ok s) = r at this
        cases r with
        | ok u => exact .inr (.inl ⟨u, (this.1 u rfl).1, rfl⟩)
        | error e => exact .inr (.inr ⟨e.code, e.pos, this.2 e rfl, rfl⟩)
      · cases h
  · unfold decodeTurn at h
    have key : ∀ r, Steady s r → Host.Outcome.next (settle s r) = (Host.Outcome.next t :
        Host.Outcome State Fault Refusal) → (Keeps s t ∧ t.busy = s.busy ∧ t.done = s.done ∧
            t.err = s.err ∧ t.op = s.op ∧ t.outLen = s.outLen ∧ t.errPos = s.errPos ∧
                t.draws = s.draws) ∨
       (∃ u, Keeps s u ∧ t = completeOk u) ∨ (∃ c p, c ≠ .noError ∧ t = errorCompletion c p s) := by
      intro r hr h
      cases h
      rcases settle_steady hr with ⟨t, _, e, k⟩ | ⟨c, p, hc, _, e⟩
      · rw [e]; exact .inl k
      · exact .inr (.inr ⟨c, p, hc, e⟩)
    split at h
    · split at h
      · exact key _ (steady_markerTurn s) h
      · split at h
        · next i r hd =>
          rcases decodeRecord_isRecord hd with ⟨v, rfl⟩ | ⟨v, l, rfl⟩
          · exact key _ (steady_literal v s) h
          · exact key _ ((steady_literal v s).bind fun t => steady_marker v l t) h
        · exact key _ ((steady_literal _ s).bind fun t => steady_markerTurn t) h
        · cases h; exact .inl ⟨.refl _, rfl, rfl, rfl, rfl, rfl, rfl, rfl⟩
    · split at h
      · cases h; exact .inr (.inl ⟨s, .refl _, rfl⟩)
      · cases h

/-- An engine turn writes neither IN nor IN_LEN nor a constant (20_memory.md R56). -/
theorem engine_keeps {s t : State} (h : engineTurn s = .next t) : Keeps s t := by
  rcases engineTurn_cases h with ⟨k, -⟩ | ⟨u, k, rfl⟩ | ⟨c, p, -, rfl⟩
  · exact k
  · exact k.trans (keeps_complete u)
  · exact keeps_error ..

/-- Nor does a command. -/
theorem command_keeps {s t : State} {w} (h : exec (decodeCommand w) s = .next t) : Keeps s t := by
  rcases exec_command_cases w s with e | ⟨_, c, _, e⟩ | ⟨_, _, e | e⟩ <;> rw [e] at h <;> cases h
  · exact .refl _
  · exact keeps_error ..
  · exact startEncode_keeps _
  · exact startDecode_keeps _

/-- A command written while BUSY has no effect (42_command.md R169). -/
theorem exec_busy {s : State} (hb : s.busy = true) (w) : exec (decodeCommand w) s = .next s := by
  rcases exec_command_cases w s with e | ⟨h, _⟩ | ⟨h, _⟩
  · exact e
  · rw [hb] at h; cases h
  · rw [hb] at h; cases h

/-- A launch that passes its checks is the start (42_command.md R164). -/
theorem launch_ok {f} {s : State} (hb : s.busy = false) (hl : s.inLen.toNat ≤ s.inCap.toNat) :
    launch f s = f s := by
  unfold launch
  have : ¬ s.inCap < s.inLen := by rw [BitVec.lt_def]; omega
  simp [hb, this]

/-- A launch with IN_LEN > IN_CAP is BADLEN (42_command.md R163). -/
theorem launch_long {f} {s : State} (hb : s.busy = false) (hl : s.inCap.toNat < s.inLen.toNat) :
    launch f s = errorCompletion .badLen 0#32 s := by
  unfold launch
  have : s.inCap < s.inLen := by rw [BitVec.lt_def]; omega
  simp [hb, this]

theorem step_dec {s : State} (ho : s.op = .dec) (hi : s.input = []) : step s = decodeTurn s := by
  rw [step_nil hi, engineTurn, ho]

theorem step_enc {s : State} (ho : s.op = .enc) (hi : s.input = []) : step s = encodeTurn s := by
  rw [step_nil hi, engineTurn, ho]

theorem afterLiteral_opos {s : State} {c} (h : s.opos.toNat < s.outCap.toNat) :
    (s.afterLiteral c).opos.toNat = s.opos.toNat + 1 :=
  State.appended_opos (bs := [c]) (by simp; omega)

/-- A run record: what it Puts, or where it overflows (41_decode.md R134, R135, R137). -/
theorem run_spec (v len : Byte) {s : State} (h : s.opos.toNat ≤ s.outCap.toNat) :
    (literalStep v s).bind (markerStep v len) =
      if s.opos.toNat + (len.toNat + 2) ≤ s.outCap.toNat then .ok ((s.afterLiteral v).afterMarker v
          len)
      else .error ⟨.overflow, if s.opos = s.outCap then s.ipos else s.ipos + 1#32⟩ := by
  rw [literalStep_spec v h]
  by_cases hlt : s.opos.toNat < s.outCap.toNat
  · have hne : s.opos ≠ s.outCap := fun e => by rw [e] at hlt; omega
    rw [if_pos hlt, if_neg hne]
    show markerStep v len (s.afterLiteral v) = _
    have ho := afterLiteral_opos (c := v) hlt
    rw [markerStep_spec _ _ (by rw [ho]; exact hlt), ho]
    have : (s.afterLiteral v).outCap = s.outCap := rfl
    rw [this]
    by_cases hf : s.opos.toNat + (len.toNat + 2) ≤ s.outCap.toNat
    · rw [if_pos hf, if_pos (by omega)]
    · rw [if_neg hf, if_neg (by omega)]; rfl
  · have he : s.opos = s.outCap := BitVec.eq_of_toNat_eq (by omega)
    rw [if_neg hlt, if_neg (by omega), if_pos he]; rfl

/-- An error discards what a literal step wrote (60_exceptions.md R205). -/
theorem error_afterLit (s : State) (c p v) : errorCompletion c p (s.afterLiteral v) =
    errorCompletion c p s := rfl

/-- The fetched bytes are the next three of the input, or fewer at its end. -/
theorem fetchBytes_eq (s : State) : s.fetchBytes = (s.inputSeq.drop s.ipos.toNat).take 3 := by
  apply List.ext_getElem?
  intro n
  simp only [State.fetchBytes, State.inputSeq, List.getElem?_map, List.getElem?_take,
      List.getElem?_drop]
  by_cases h : n < 3
  · by_cases h' : s.ipos.toNat + n < s.inLen.toNat
    · rw [List.getElem?_range (by omega), if_pos h, List.getElem?_range h']; rfl
    · rw [List.getElem?_eq_none (by simp; omega), if_pos h, List.getElem?_eq_none (by simp; omega)];
        rfl
  · rw [List.getElem?_eq_none (by simp; omega), if_neg h]; rfl

theorem fetchBytes_two {s : State} (h : s.ipos.toNat + 2 = s.inLen.toNat) :
    s.fetchBytes = [s.inByte s.ipos.toNat, s.inByte (s.ipos.toNat + 1)] := by
  unfold State.fetchBytes
  rw [show min 3 (s.inLen.toNat - s.ipos.toNat) = 2 by omega]; rfl

/-- A chunk is full at 257 occurrences (40_encode.md R105). -/
theorem chunkFull_iff (s : State) : s.chunkFull = true ↔ s.eRep = true ∧ s.eCnt = 0xFF#8 := by
  simp only [State.chunkFull, Bool.and_eq_true, beq_iff_eq, Config.maxRun]
  refine and_congr_right fun _ => ⟨fun h => BitVec.eq_of_toNat_eq h, fun h => by rw [h]; rfl⟩

/-- EmitChunk writes the record of the open chunk or overflows (40_encode.md R107). -/
theorem emitChunk_spec {s : State} (h : s.opos.toNat ≤ s.outCap.toNat) :
    emitChunk s = if s.opos.toNat + s.chunkRecord.length ≤ s.outCap.toNat then .ok (s.appended
        s.chunkRecord)
      else .error ⟨.overflow, s.ipos⟩ := putAll_spec _ h

/-- The input from an index below N on. -/
theorem drop_cons {s : State} {k : Nat} (h : k < s.inLen.toNat) : s.inputSeq.drop k = s.inByte k ::
    s.inputSeq.drop (k + 1) := by
  have : k < s.inputSeq.length := by simpa [State.inputSeq] using h
  rw [List.drop_eq_getElem_cons this]
  simp [State.inputSeq]

/-- The input from N on. -/
theorem drop_nil {s : State} {k : Nat} (h : s.inLen.toNat ≤ k) : s.inputSeq.drop k = [] := by
  simpa [State.inputSeq] using h

/-- The input sequence depends on IN, IN_LEN and the reset count only. -/
theorem inputSeq_congr {s t : State} (h : SameInput s t) : t.inputSeq = s.inputSeq := by
  obtain ⟨e1, e2, e3, e4, e5, e6⟩ := h
  have : t.inByte = s.inByte := by funext i; simp [State.inByte, e4, e6]
  simp [State.inputSeq, e3, this]

theorem inByte_congr {s t : State} (h : SameInput s t) : t.inByte = s.inByte := by
  obtain ⟨e1, e2, e3, e4, e5, e6⟩ := h
  funext i; simp [State.inByte, e4, e6]

/-- Puts keep OUT listed as exactly OUT[0..opos). -/
theorem keys_append {s : State} {bs} (h : s.outBuf.map Prod.fst = List.range s.opos.toNat) (hf :
    s.opos.toNat + bs.length ≤ s.outCap.toNat) : (s.appended bs).outBuf.map Prod.fst = List.range
        (s.appended bs).opos.toNat := by
  rw [State.appended_opos hf]
  exact Memory.keys_setAll_range bs h

/-! ### One byte of the DECODE scan -/

/-- At a marker a byte turn is the marker step (41_decode.md R133, R135). -/
theorem byteDecodeTurn_marker {s : State} (ho : s.op = .dec) (hlt : s.ipos.toNat < s.inLen.toNat)
    (hm : s.isMarker s.currentByte = true) : byteDecodeTurn s = settle s (markerTurn s) := by
  simp [byteDecodeTurn, ho, hlt, byteTurn, hm]

/-- Elsewhere below N it is the literal step (41_decode.md R133, R134). -/
theorem byteDecodeTurn_literal {s : State} (ho : s.op = .dec) (hlt : s.ipos.toNat < s.inLen.toNat)
    (hm : s.isMarker s.currentByte = false) :
    byteDecodeTurn s = settle s (literalStep s.currentByte s) := by
  simp [byteDecodeTurn, ho, hlt, byteTurn, hm]

/-- While no DECODE runs it does nothing. -/
theorem byteDecodeTurn_other {s : State} (ho : s.op ≠ .dec) : byteDecodeTurn s = s := by
  simp [byteDecodeTurn, ho]

end Sys2Proof.Machine
end

