-- ==== Sys2Proof/Laws/Invariant.lean ====
section
/-! SUPPORT. The invariant: how each kind of state an operation can reach satisfies it. -/

namespace Sys2Proof.Machine

theorem Inv.withInput {s : State} (h : Inv s) (es) : Inv (s.withInput es) :=
  ⟨h.inCap_le, h.outCap_le, h.busy_iff, h.busy_not_done, h.err_done, h.err_outLen, h.ok_errPos,
      h.fresh, h.in_wf, h.in_bound, h.out_busy, h.opos_le, h.out_done, h.outLen_le, h.out_none,
          h.inLen_le, h.ipos_le, h.enc_open, h.dec_nonempty, h.dec_boundary⟩

/-- The part of the invariant that no step of an operation touches. -/
structure InvBase (s : State) : Prop where
  a : s.inCap.toNat ≤ 2 ^ 30
  b : s.outCap.toNat ≤ 2 ^ 30
  c : Memory.wf s.inBuf = true
  d : ∀ c ∈ s.inBuf, c.1 < s.inCap.toNat

theorem Inv.base {s : State} (h : Inv s) : InvBase s := ⟨h.inCap_le, h.outCap_le, h.in_wf,
    h.in_bound⟩

theorem InvBase.keeps {s t : State} (h : InvBase s) (k : Keeps s t) : InvBase t := by
  obtain ⟨⟨e1, e2, e3, e4, e5, e6⟩, e7⟩ := k
  exact ⟨e1 ▸ h.a, e2 ▸ h.b, e4 ▸ h.c, e4 ▸ e1 ▸ h.d⟩

/-- An error completion satisfies the invariant. -/
theorem inv_error {s : State} (h : InvBase s) {c p} (hc : c ≠ .noError) :
    Inv (errorCompletion c p s) where
  inCap_le := h.a
  outCap_le := h.b
  busy_iff := by simp
  busy_not_done := by simp
  err_done := by simp
  err_outLen := by simp
  ok_errPos := by simp [hc]
  fresh := by simp
  in_wf := h.c
  in_bound := h.d
  out_busy := by simp
  opos_le := by simp
  out_done := by simp [hc]
  outLen_le := by simp
  out_none := by simp
  inLen_le := by simp
  ipos_le := by simp
  enc_open := by simp
  dec_nonempty := by simp
  dec_boundary := by simp

/-- A completion without error satisfies the invariant. -/
theorem inv_complete {s : State} (h : InvBase s) (h1 : s.outBuf.map Prod.fst = List.range
    s.opos.toNat) (h2 : s.opos.toNat ≤ s.outCap.toNat) : Inv (completeOk s) where
  inCap_le := h.a
  outCap_le := h.b
  busy_iff := by simp
  busy_not_done := by simp
  err_done := by simp
  err_outLen := by simp
  ok_errPos := by simp
  fresh := by simp
  in_wf := h.c
  in_bound := h.d
  out_busy := by simp
  opos_le := by simp
  out_done := fun _ _ => h1
  outLen_le := fun _ => h2
  out_none := by simp
  inLen_le := by simp
  ipos_le := by simp
  enc_open := by simp
  dec_nonempty := by simp
  dec_boundary := by simp

/-- When a running operation satisfies the invariant. -/
theorem inv_running {s : State} (h : InvBase s) (hb : s.busy = true) (hd : s.done = false) (he :
    s.err = .noError) (ho : s.op ≠ .none)
   (h1 : s.outBuf.map Prod.fst = List.range s.opos.toNat) (h2 : s.opos.toNat ≤ s.outCap.toNat)
   (h3 : s.inLen.toNat ≤ s.inCap.toNat) (h4 : s.ipos.toNat ≤ s.inLen.toNat) (h5 : s.op = .enc →
       (s.eOpen = true ↔ s.ipos ≠ 0#32))
   (h6 : s.op = .dec → s.inLen ≠ 0#32) (h7 : s.op = .dec → s.ipos.toNat < s.inLen.toNat →
       s.isMarker s.currentByte = false) : Inv s where
  inCap_le := h.a
  outCap_le := h.b
  busy_iff := by simp [hb, ho]
  busy_not_done := fun _ => hd
  err_done := fun h => absurd he h
  err_outLen := fun h => absurd he h
  ok_errPos := by simp [hd]
  fresh := by simp [hb]
  in_wf := h.c
  in_bound := h.d
  out_busy := fun _ => h1
  opos_le := fun _ => h2
  out_done := by simp [hd]
  outLen_le := by simp [hd]
  out_none := by simp [hb]
  inLen_le := fun _ => h3
  ipos_le := fun _ => h4
  enc_open := h5
  dec_nonempty := h6
  dec_boundary := h7

theorem Inv.busy {s : State} (h : Inv s) (ho : s.op ≠ .none) : s.busy = true := h.busy_iff.2 ho

theorem Inv.err0 {s : State} (h : Inv s) (hb : s.busy = true) : s.err = .noError := by
  by_contra e
  have := h.err_done e
  rw [h.busy_not_done hb] at this; cases this

end Sys2Proof.Machine
end

