-- ==== Sys2Proof/Laws/PerInstr.lean ====
section
/-! SUPPORT. Statements made for every instruction, one lemma per constructor. -/

namespace Sys2Proof.Laws.EncodedLength

/-- How many bits an encoding has. -/
def bits : Code → Nat
  | .command _ => 32
  | .stream bytes => 8 * bytes.length

/-- How many bits the opcode table gives each row: 32 for a command, 8 for a literal record, 24 for a
run record (30_encoding.md R70, R74). -/
def tableBits : Instr → Nat
  | .nop _ | .encode _ | .decode _ | .reserved _ => 32
  | .lit _ => 8
  | .run _ _ => 24

/-- The encoding of an instruction has as many bits as its row. -/
def Statement (i : Instr) : Prop := bits (encode i) = tableBits i

theorem nop (ignored : BitVec 30) : Statement (.nop ignored) := rfl
theorem encode (ignored : BitVec 30) : Statement (.encode ignored) := rfl
theorem decode (ignored : BitVec 30) : Statement (.decode ignored) := rfl
theorem reserved (ignored : BitVec 30) : Statement (.reserved ignored) := rfl
theorem lit (v : Byte) : Statement (.lit v) := rfl
theorem run (v len : Byte) : Statement (.run v len) := rfl

end Sys2Proof.Laws.EncodedLength
end

