-- ==== Sys2Proof/Laws/Scan.lean ====
section
/-! SUPPORT. The engine against the pure scans: one turn of a running operation keeps the result it is heading for. -/

namespace Sys2Proof.Machine

open Sys2Proof.Codec

/-- OUT[0..opos) holds exactly these bytes. -/
def Holds (s : State) (out : List Byte) : Prop := s.opos.toNat = out.length ∧
    ∀ j, Memory.get? s.outBuf j = out[j]?

/-- Puts append. -/
theorem Holds.append {s : State} {out bs} (h : Holds s out) (hf :
    s.opos.toNat + bs.length ≤ s.outCap.toNat) : Holds (s.appended bs) (out ++ bs) := by
  refine ⟨?_, fun j => ?_⟩
  · rw [State.appended_opos hf, h.1, List.length_append]
  · show Memory.get? (Memory.setAll _ _ _) j = _
    rw [Memory.get?_setAll, h.1, List.getElem?_append]
    by_cases h1 : j < out.length
    · rw [if_neg (by omega), if_pos h1, h.2]
    · rw [if_neg h1]
      split
      · rfl
      · rw [h.2, List.getElem?_eq_none (by omega), List.getElem?_eq_none (by omega)]

/-- The encoder's open chunk as a byte and a number of occurrences (10_state.md R34). -/
def openChunkOf (s : State) : Option (Byte × Nat) := if s.eOpen then some (s.eVal,
    if s.eRep then s.eCnt.toNat + 2 else 1) else none

/-- The input still to scan. -/
def unread (s : State) : List Byte := s.inputSeq.drop s.ipos.toNat

/-- What the host will see of the block's current or last operation: for a running one, the result
of the bounded scan of the bytes still to read. -/
def WillShow (s : State) (R : HostResult) : Prop :=
  match s.op with
  | .none => s.result = R
  | .enc => ∃ out, Holds s out ∧ expectedResult (encScan 257 s.outCap.toNat (openChunkOf s)
      s.ipos.toNat out (unread s)) = R
  | .dec => ∃ out, Holds s out ∧ expectedResult (decBoundedScan s.outCap.toNat s.dPrev s.dArmed
      s.ipos.toNat out (unread s)) = R

/-- A bound on the engine turns a running operation still takes. -/
def turnsLeft (s : State) : Nat := if s.op = .none then 0 else s.inLen.toNat - s.ipos.toNat + 1

/-- What the host sees after OVERFLOW (42_command.md R168). -/
theorem result_error_over (s : State) (p : Word) (n : Nat) (h : p.toNat = n) :
    (errorCompletion .overflow p s).result = expectedResult (.overflow n) := by
  subst h
  simp [State.result, expectedResult, statusWord_errorCompletion, ErrCode.code, State.outputSeq]

/-- What the host sees after MALFORMED (42_command.md R168). -/
theorem result_error_mal (s : State) (p : Word) (n : Nat) (h : p.toNat = n) :
    (errorCompletion .malformed p s).result = expectedResult (.malformed n) := by
  subst h
  simp [State.result, expectedResult, statusWord_errorCompletion, ErrCode.code, State.outputSeq]

/-- What the host sees after a completion without error (42_command.md R168). -/
theorem result_complete {s : State} {out} (h : Holds s out) :
    (completeOk s).result = expectedResult (.ok out) := by
  simp only [State.result, expectedResult, statusWord_completeOk, completeOk_outLen,
      completeOk_errPos]
  congr 1
  · rw [← h.1]; simp
  · simp only [State.outputSeq, completeOk_outLen, completeOk_outBuf, h.1]
    apply List.ext_getElem?
    intro n
    rw [List.getElem?_map, List.getElem?_map]
    by_cases hn : n < out.length
    · rw [List.getElem?_range hn]; simp [h.2, hn]
    · rw [List.getElem?_eq_none (by simpa using hn), List.getElem?_eq_none (l :=
        out) (by simpa using hn)]; rfl

/-- What an engine turn of a running operation achieves: the invariant and the result to come are
kept, and fewer turns are left. -/
def GoodTurn (s : State) (R : HostResult) (t : State) : Prop := Inv t ∧ Keeps s t ∧ WillShow t R ∧
    turnsLeft t < turnsLeft s ∧ s.opos.toNat ≤ (if t.op = .none then s.opos else t.opos).toNat ∧
        s.ipos.toNat ≤ (if t.op = .none then s.ipos else t.ipos).toNat

theorem goodTurn_error {s : State} {R c p} (hI : Inv s) (ho : s.op ≠ .none) (hc :
    c ≠ .noError) (hr : (errorCompletion c p s).result = R) :
        GoodTurn s R (errorCompletion c p s) :=
  ⟨inv_error hI.base hc, keeps_error _ _ _, hr, by simp [turnsLeft, ho], by simp, by simp⟩

theorem goodTurn_complete {s u : State} {R} (hI : Inv s) (k : Keeps s u) (ho : s.op ≠ .none) (h1 :
    u.outBuf.map Prod.fst = List.range u.opos.toNat) (h2 : u.opos.toNat ≤ u.outCap.toNat) (hr :
        (completeOk u).result = R) : GoodTurn s R (completeOk u) :=
  ⟨inv_complete (hI.base.keeps k) h1 h2, k.trans (keeps_complete u), hr,
      by simp [turnsLeft, ho], by simp, by simp⟩

/-- One turn of a running DECODE agrees with the bounded scan. -/
theorem decodeTurn_good {s : State} {R} (hI : Inv s) (ho : s.op = .dec) (hF : WillShow s R) : ∃ t,
    decodeTurn s = .next t ∧ GoodTurn s R t := by
  have ho' : s.op ≠ .none := by simp [ho]
  have hb := hI.busy ho'
  have hop := hI.opos_le hb
  have hcap := hI.outCap_le
  simp only [WillShow, ho] at hF
  obtain ⟨out, hH, hR⟩ := hF
  by_cases hlt : s.ipos.toNat < s.inLen.toNat
  · have hm := hI.dec_boundary ho hlt
    have hrest : unread s = s.currentByte :: s.inputSeq.drop (s.ipos.toNat + 1) := drop_cons hlt
    have hb1 : (s.dArmed && s.currentByte == s.dPrev) = false := hm
    have htake : s.fetchBytes = (s.currentByte :: s.inputSeq.drop (s.ipos.toNat + 1)).take 3 :=
        by rw [fetchBytes_eq]; exact congrArg _ hrest
    rw [hrest, decBoundedScan_literal hb1, ← hH.1] at hR
    have keep1 : Keeps s (s.afterLiteral s.currentByte) := afterLiteral_keeps _ _
    have hip1 : (s.afterLiteral s.currentByte).ipos.toNat = s.ipos.toNat + 1 := ipos_add (k :=
        1) (by omega)
    have hN := hI.dec_nonempty ho
    have litgood : (s.ipos.toNat + 1 < s.inLen.toNat → s.inByte (s.ipos.toNat + 1) ≠
        s.currentByte) → GoodTurn s R (settle s (literalStep s.currentByte s)) := by
      intro hne
      rw [literalStep_spec _ hop]
      by_cases hf : s.opos.toNat < s.outCap.toNat
      · rw [if_pos hf]
        rw [if_pos (by omega)] at hR
        have hf' : s.opos.toNat + [s.currentByte].length ≤ s.outCap.toNat := by simp; omega
        have hopos : (s.afterLiteral s.currentByte).opos.toNat = s.opos.toNat + 1 :=
            afterLiteral_opos hf
        have hop' : (s.afterLiteral s.currentByte).op = .dec := ho
        rw [settle_ok]
        refine ⟨inv_running (hI.base.keeps keep1) hb (hI.busy_not_done hb) (hI.err0 hb) ho'
            (keys_append (hI.out_busy hb) hf') ?_ (hI.inLen_le hb) ?_ ?_ (fun _ => hN) ?_, keep1,
                ?_, ?_, ?_, ?_⟩
        · show (s.afterLiteral s.currentByte).opos.toNat ≤ s.outCap.toNat
          rw [hopos]; exact hf
        · show (s.afterLiteral s.currentByte).ipos.toNat ≤ s.inLen.toNat
          rw [hip1]; exact hlt
        · intro h; rw [hop'] at h; cases h
        · intro _ h
          rw [hip1] at h
          have : (s.afterLiteral s.currentByte).currentByte = s.inByte (s.ipos.toNat + 1) := by
            show s.inByte (s.afterLiteral s.currentByte).ipos.toNat = _
            rw [hip1]
          have hne' := hne h
          rw [this]
          show (true && s.inByte (s.ipos.toNat + 1) == s.currentByte) = false
          simpa using hne'
        · simp only [WillShow, hop']
          refine ⟨out ++ [s.currentByte], Holds.append hH hf', ?_⟩
          rw [hip1]
          have : unread (s.afterLiteral s.currentByte) = s.inputSeq.drop (s.ipos.toNat + 1) := by
            unfold unread; rw [hip1]; rfl
          rw [this]; exact hR
        · simp only [turnsLeft, hop', ho]
          rw [hip1]
          have : (s.afterLiteral s.currentByte).inLen = s.inLen := rfl
          simp [this]; omega
        · simp [hop', hopos]
        · simp [hop', hip1]
      · rw [if_neg hf]
        rw [if_neg (by omega)] at hR
        exact goodTurn_error hI ho' (by simp) (by rw [← hR]; exact result_error_over _ _ _ rfl)
    unfold decodeTurn
    rw [if_pos hlt, if_neg (by simp [hm])]
    by_cases h2 : s.ipos.toNat + 1 < s.inLen.toNat
    · rw [drop_cons h2] at htake hR
      by_cases heq : s.currentByte = s.inByte (s.ipos.toNat + 1)
      · by_cases h3 : s.ipos.toNat + 2 < s.inLen.toNat
        · rw [drop_cons h3] at htake hR
          simp only [List.take_succ_cons, List.take_zero] at htake
          have : decode (.stream s.fetchBytes) = .ok (.run s.currentByte (s.inByte (s.ipos.toNat +
              2)), []) := by
            simp only [decode, htake, decodeRecord, heq, if_true]
          rw [this]
          simp only [exec_run]
          refine ⟨_, rfl, ?_⟩
          rw [run_spec _ _ hop]
          generalize hl : s.inByte (s.ipos.toNat + 2) = l at *
          rw [← heq, decBoundedScan_marker] at hR
          simp only [List.length_append, List.length_singleton] at hR
          by_cases hf : s.opos.toNat + (l.toNat + 2) ≤ s.outCap.toNat
          · rw [if_pos hf]
            rw [if_pos (by omega), if_pos (by rw [← hH.1]; omega)] at hR
            have hf1 : s.opos.toNat < s.outCap.toNat := by omega
            have hf' : s.opos.toNat + [s.currentByte].length ≤ s.outCap.toNat := by simp; omega
            have hopos1 : (s.afterLiteral s.currentByte).opos.toNat = s.opos.toNat + 1 :=
                afterLiteral_opos hf1
            have hf2 : (s.afterLiteral s.currentByte).opos.toNat + (List.replicate (l.toNat + 1)
                s.currentByte).length ≤ (s.afterLiteral s.currentByte).outCap.toNat := by
              rw [hopos1, List.length_replicate]; show _ ≤ s.outCap.toNat; omega
            have hopos : ((s.afterLiteral s.currentByte).afterMarker s.currentByte l).opos.toNat =
                s.opos.toNat + (l.toNat + 2) := by
              show ((s.afterLiteral s.currentByte).appended (List.replicate (l.toNat + 1)
                  s.currentByte)).opos.toNat = _
              rw [State.appended_opos hf2, hopos1, List.length_replicate]; omega
            have hip : ((s.afterLiteral s.currentByte).afterMarker s.currentByte l).ipos.toNat =
                s.ipos.toNat + 3 := by
              show (s.ipos + 1#32 + 2#32).toNat = _
              rw [BitVec.add_assoc]; exact ipos_add (k := 3) (by omega)
            have hop' : ((s.afterLiteral s.currentByte).afterMarker s.currentByte l).op = .dec := ho
            have keep2 : Keeps s ((s.afterLiteral s.currentByte).afterMarker s.currentByte l) :=
                ⟨⟨rfl, rfl, rfl, rfl, rfl, rfl⟩, rfl⟩
            simp only [settle_ok]
            refine ⟨inv_running (hI.base.keeps keep2) hb (hI.busy_not_done hb) (hI.err0 hb) ho'
                (keys_append (s := s.afterLiteral s.currentByte) (keys_append (hI.out_busy hb) hf')
                    hf2) ?_ (hI.inLen_le hb) ?_ ?_ (fun _ => hN) ?_, keep2, ?_, ?_, ?_, ?_⟩
            · show _ ≤ s.outCap.toNat
              rw [hopos]; exact hf
            · show _ ≤ s.inLen.toNat
              rw [hip]; omega
            · intro h; rw [hop'] at h; cases h
            · intro _ _; rfl
            · simp only [WillShow, hop']
              refine ⟨out ++ [s.currentByte] ++ List.replicate (l.toNat + 1) s.currentByte,
                  Holds.append (s := s.afterLiteral s.currentByte) (Holds.append hH hf') hf2, ?_⟩
              rw [hip]
              have : unread ((s.afterLiteral s.currentByte).afterMarker s.currentByte l) =
                  s.inputSeq.drop (s.ipos.toNat + 3) := by
                unfold unread; rw [hip]; rfl
              rw [this]; exact hR
            · simp only [turnsLeft, hop', ho]
              rw [hip]
              have : ((s.afterLiteral s.currentByte).afterMarker s.currentByte l).inLen = s.inLen :=
                  rfl
              simp [this]; omega
            · simp [hop', hopos]
            · simp [hop', hip]
          · rw [if_neg hf]
            simp only [settle_error]
            refine goodTurn_error hI ho' (by simp) ?_
            by_cases hf1 : s.opos = s.outCap
            · rw [if_neg (by rw [hf1]; omega)] at hR
              rw [if_pos hf1, ← hR]; exact result_error_over _ _ _ rfl
            · have : s.opos.toNat ≠ s.outCap.toNat := fun e => hf1 (BitVec.eq_of_toNat_eq e)
              rw [if_pos (by omega), if_neg (by rw [← hH.1]; omega)] at hR
              rw [if_neg hf1, ← hR]; exact result_error_over _ _ _ (ipos_add (k := 1) (by omega))
        · rw [drop_nil (s := s) (k := s.ipos.toNat + 1 + 1) (by omega)] at htake hR
          simp only [List.take_succ_cons, List.take_nil] at htake
          have : decode (.stream s.fetchBytes) = .error (.truncatedMarker s.currentByte) := by
            simp only [decode, htake, decodeRecord, heq, if_true]
          rw [this]
          simp only
          refine ⟨_, rfl, ?_⟩
          unfold truncatedTurn
          rw [literalStep_spec _ hop]
          rw [← heq, decBoundedScan_truncated] at hR
          by_cases hf1 : s.opos.toNat < s.outCap.toNat
          · rw [if_pos hf1]
            rw [if_pos (by omega)] at hR
            have : markerTurn (s.afterLiteral s.currentByte) = .error ⟨.malformed, s.ipos + 1#32⟩ :=
                by
              unfold markerTurn
              rw [if_pos (by rw [hip1]; show _ = s.inLen.toNat; omega)]; rfl
            rw [show (Except.ok (s.afterLiteral s.currentByte)).bind markerTurn = markerTurn
                (s.afterLiteral s.currentByte) from rfl, this]
            exact goodTurn_error hI ho' (by simp)
                (by rw [← hR]; exact result_error_mal _ _ _ (ipos_add (k := 1) (by omega)))
          · rw [if_neg hf1]
            rw [if_neg (by omega)] at hR
            exact goodTurn_error hI ho' (by simp) (by rw [← hR]; exact result_error_over _ _ _ rfl)
      · have : ∃ r, decode (.stream s.fetchBytes) = .ok (.lit s.currentByte, r) := by
          simp only [List.take_succ_cons] at htake
          simp only [decode, htake, decodeRecord, heq, if_false]
          exact ⟨_, rfl⟩
        obtain ⟨r, hr⟩ := this
        rw [hr]
        exact ⟨_, rfl, litgood fun _ => Ne.symm heq⟩
    · rw [drop_nil (s := s) (k := s.ipos.toNat + 1) (by omega)] at htake
      have : decode (.stream s.fetchBytes) = .ok (.lit s.currentByte, []) := by
        rw [htake]; rfl
      rw [this]
      exact ⟨_, rfl, litgood fun h => absurd h h2⟩
  · have hle := hI.ipos_le hb
    have hN : s.ipos = s.inLen := BitVec.eq_of_toNat_eq (by omega)
    refine ⟨completeOk s,
        by rw [decodeTurn, if_neg hlt, if_pos hN], goodTurn_complete hI (.refl s) ho' (hI.out_busy hb) hop ?_⟩
    rw [result_complete hH, ← hR]
    have : unread s = [] := drop_nil (by omega)
    rw [this]; simp [decBoundedScan]

theorem unread_next {s t : State} (k : SameInput s t) (h : t.ipos.toNat = s.ipos.toNat + 1) :
    unread t = s.inputSeq.drop (s.ipos.toNat + 1) := by
  unfold unread; rw [h, inputSeq_congr k]

/-- The open chunk's bytes are its record (40_encode.md R101, R107). -/
theorem record_chunk (s : State) : record s.eVal (if s.eRep then s.eCnt.toNat + 2 else 1) =
    s.chunkRecord := by
  unfold record State.chunkRecord
  cases s.eRep <;> simp

/-- One turn of a running ENCODE agrees with the bounded scan. -/
theorem encodeTurn_good {s : State} {R} (hI : Inv s) (ho : s.op = .enc) (hF : WillShow s R) : ∃ t,
    encodeTurn s = .next t ∧ GoodTurn s R t := by
  have ho' : s.op ≠ .none := by simp [ho]
  have hb := hI.busy ho'
  have hop := hI.opos_le hb
  have hopen := hI.enc_open ho
  simp only [WillShow, ho] at hF
  obtain ⟨out, hH, hR⟩ := hF
  by_cases hlt : s.ipos.toNat < s.inLen.toNat
  · refine ⟨_, by rw [encodeTurn, if_pos hlt], ?_⟩
    have hrest : unread s = s.currentByte :: s.inputSeq.drop (s.ipos.toNat + 1) := drop_cons hlt
    have hip : (s.ipos + 1#32).toNat = s.ipos.toNat + 1 := ipos_add (k := 1) (by omega)
    rw [hrest] at hR
    -- generic
    have gen : ∀ u : State, Keeps s u → u.busy = s.busy → u.done = s.done → u.err = s.err →
        u.op = s.op → u.eOpen = true → u.ipos = s.ipos + 1#32 → s.opos.toNat ≤ u.opos.toNat →
       u.outBuf.map Prod.fst = List.range u.opos.toNat → u.opos.toNat ≤ s.outCap.toNat →
           (∃ out, Holds u out ∧ expectedResult (encScan 257 s.outCap.toNat (openChunkOf u)
               (s.ipos.toNat + 1) out (s.inputSeq.drop (s.ipos.toNat + 1))) = R) → GoodTurn s R u :=
                   by
      intro u k e1 e2 e3 e4 e5 e6 e7 e8 e9 e10
      obtain ⟨⟨c1, c2, c3, c4, c5, c6⟩, c7⟩ := id k
      have hu : u.op = .enc := e4.trans ho
      refine ⟨inv_running (hI.base.keeps k) (e1.trans hb) (e2.trans (hI.busy_not_done hb)) (e3.trans
          (hI.err0 hb)) (by simp [hu]) e8 (by rw [c2]; exact e9)
              (by rw [c1, c3]; exact hI.inLen_le hb) (by rw [e6, c3, hip]; exact hlt) ?_
                  (by simp [hu]) (by simp [hu]), k, ?_, ?_, ?_, ?_⟩
      · intro _
        rw [e5, e6]
        refine ⟨fun _ h => ?_, fun _ => rfl⟩
        rw [h] at hip; simp at hip
      · simp only [WillShow, hu]
        rw [c2, e6, hip, unread_next k.same (by rw [e6, hip])]
        exact e10
      · simp only [turnsLeft, hu, ho, c3, e6, hip]
        simp; omega
      · simpa [hu] using e7
      · simp [hu, e6, hip]
    by_cases he : s.eOpen = true
    · have hch : openChunkOf s = some (s.eVal, if s.eRep then s.eCnt.toNat + 2 else 1) :=
        by simp [openChunkOf, he]
      rw [hch] at hR
      simp only [encScan] at hR
      rw [record_chunk, ← hH.1] at hR
      have hfull : ((if s.eRep then s.eCnt.toNat + 2 else 1) ≠ 257) ↔ s.chunkFull = false := by
        cases hr : s.eRep <;> simp [State.chunkFull, hr, Config.maxRun]
      by_cases hc : s.currentByte = s.eVal ∧ s.chunkFull = false
      · have e : encodeStep s = .ok { extendChunk s with ipos := s.ipos + 1#32 } := by
          simp [encodeStep, encodeByte, he, hc, Except.bind]
        rw [e, settle_ok]
        rw [if_pos ⟨hc.1, hfull.2 hc.2⟩] at hR
        refine gen _ ⟨⟨by simp, by simp, by simp, by simp, by simp, by simp⟩,
            by simp⟩ (by simp) (by simp) (by simp) (by simp) (by simpa using he) rfl (by simp) (by simpa using hI.out_busy hb) (by simpa using hop) ⟨out, ⟨by simpa using hH.1, by simpa using hH.2⟩, ?_⟩
        have : openChunkOf { extendChunk s with ipos := s.ipos + 1#32 } = some (s.eVal,
            (if s.eRep then s.eCnt.toNat + 2 else 1) + 1) := by
          cases hr : s.eRep
          · simp [openChunkOf, he, extendChunk, hr]
          · have hn : s.eCnt ≠ 0xFF#8 := fun h => by
              rw [(chunkFull_iff s).2 ⟨hr, h⟩] at hc; cases hc.2
            have hn' : s.eCnt.toNat ≠ 255 := fun h => hn (BitVec.eq_of_toNat_eq h)
            have := s.eCnt.isLt
            simp [openChunkOf, he, extendChunk, hr]; omega
        rw [this]; exact hR
      · have e : encodeStep s = ((emitChunk s).bind fun t =>
          .ok (openChunk s.currentByte t)).bind fun t => .ok { t with ipos := t.ipos + 1#32 } := by
          simp [encodeStep, encodeByte, he, hc]
        rw [if_neg (fun h => hc ⟨h.1, hfull.1 h.2⟩)] at hR
        rw [e, emitChunk_spec hop]
        by_cases hf : s.opos.toNat + s.chunkRecord.length ≤ s.outCap.toNat
        · rw [if_pos hf] at hR ⊢
          have ha := State.appended_opos hf
          show GoodTurn s R
              { openChunk s.currentByte (s.appended s.chunkRecord) with ipos := s.ipos + 1#32 }
          refine gen _ ⟨⟨rfl, rfl, rfl, rfl, rfl, rfl⟩, rfl⟩ rfl rfl rfl rfl rfl rfl ?_ (keys_append
              (hI.out_busy hb) hf) ?_ ⟨out ++ s.chunkRecord, Holds.append hH hf, hR⟩
          · show _ ≤ (s.appended s.chunkRecord).opos.toNat; omega
          · show (s.appended s.chunkRecord).opos.toNat ≤ _; omega
        · rw [if_neg hf] at hR ⊢
          exact goodTurn_error hI ho' (by simp) (by rw [← hR]; exact result_error_over _ _ _ rfl)
    · have hch : openChunkOf s = none := by simp [openChunkOf, he]
      rw [hch] at hR
      simp only [encScan] at hR
      have e : encodeStep s = .ok { openChunk s.currentByte s with ipos := s.ipos + 1#32 } := by
        simp [encodeStep, encodeByte, he, Except.bind, openChunk]
      rw [e, settle_ok]
      exact gen _ ⟨⟨rfl, rfl, rfl, rfl, rfl, rfl⟩, rfl⟩ rfl rfl rfl rfl rfl rfl (Nat.le_refl _)
          (hI.out_busy hb) hop ⟨out, hH, hR⟩
  · have hle := hI.ipos_le hb
    have hN : s.ipos = s.inLen := BitVec.eq_of_toNat_eq (by omega)
    refine ⟨_, by rw [encodeTurn, if_neg hlt, if_pos hN], ?_⟩
    have hr : unread s = [] := drop_nil (by omega)
    rw [hr] at hR
    by_cases he : s.eOpen = true
    · have hch : openChunkOf s = some (s.eVal, if s.eRep then s.eCnt.toNat + 2 else 1) :=
        by simp [openChunkOf, he]
      rw [hch] at hR
      simp only [encScan] at hR
      rw [record_chunk, ← hH.1] at hR
      unfold encodeFinish
      rw [if_pos he, emitChunk_spec hop]
      by_cases hf : s.opos.toNat + s.chunkRecord.length ≤ s.outCap.toNat
      · rw [if_pos hf] at hR ⊢
        have ha := State.appended_opos hf
        exact goodTurn_complete hI ⟨⟨rfl, rfl, rfl, rfl, rfl, rfl⟩,
            rfl⟩ ho' (keys_append (hI.out_busy hb) hf) (by rw [ha]; exact hf)
                (by rw [← hR]; exact result_complete (Holds.append hH hf))
      · rw [if_neg hf] at hR ⊢
        exact goodTurn_error hI ho' (by simp) (by rw [← hR]; exact result_error_over _ _ _ rfl)
    · have hch : openChunkOf s = none := by simp [openChunkOf, he]
      rw [hch] at hR
      simp only [encScan] at hR
      unfold encodeFinish
      rw [if_neg he]
      exact goodTurn_complete hI (.refl s) ho' (hI.out_busy hb) hop
          (by rw [← hR]; exact result_complete hH)

end Sys2Proof.Machine
end

