-- ==== Sys2Proof/Machine/HostScript.lean ====
section
/-! DEFINITION. The host-script notation (30_encoding.md R78, R79): its lines and pseudo-instructions as
events. The number of engine turns that pass between two lines is not part of the notation; `wait`
takes it as an argument (42_command.md R165). -/

namespace Sys2Proof.Machine.HostScript

/-- The register names stand for their offsets (30_encoding.md R78, 10_state.md R21). -/
inductive Reg where
  | id | cmd | status | inLen | outLen | errPos | inCap | outCap
deriving DecidableEq, Repr

def Reg.offset : Reg → Word
  | .id => 0x000#32
  | .cmd => 0x004#32
  | .status => 0x008#32
  | .inLen => 0x00C#32
  | .outLen => 0x010#32
  | .errPos => 0x014#32
  | .inCap => 0x018#32
  | .outCap => 0x01C#32

/-- `W32 <reg>, <value>` -/
def w32 (r : Reg) (value : Word) : Event := .access (.write .w32 r.offset value)

/-- `R32 <reg>` -/
def r32 (r : Reg) : Event := .access (.read .w32 r.offset)

/-- `W8 IN+<i>, <byte>` -/
def w8 (i : Nat) (b : Byte) : Event :=
  .access (.write .w8 (BitVec.ofNat 32 (inBase + i)) (b.setWidth 32))

/-- `R8 OUT+<j>` -/
def r8 (j : Nat) : Event := .access (.read .w8 (BitVec.ofNat 32 (outBase + j)))

/-- The byte writes of LOAD, from index i. -/
def loadFrom : Nat → List Byte → List Event
  | _, [] => []
  | i, b :: bs => w8 i b :: loadFrom (i + 1) bs

/-- `LOAD [b0, ..., b(n-1)]` -/
def load (bytes : List Byte) : List Event :=
  loadFrom 0 bytes ++ [w32 .inLen (BitVec.ofNat 32 bytes.length)]

/-- `ENC` -/
def enc : Event := w32 .cmd 0x00000001#32

/-- `DEC` -/
def dec : Event := w32 .cmd 0x00000002#32

/-- `WAIT`: one poll of STATUS for each entry, each after so many engine turns. -/
def wait (turnsBeforePoll : List Nat) : List Event :=
  turnsBeforePoll.flatMap fun k => List.replicate k Event.engine ++ [r32 .status]

/-- `FETCH`, when the OUT_LEN it reads is m. -/
def fetch (m : Nat) : List Event := r32 .outLen :: (List.range m).map r8

/-- `COPYBACK`, when the output it fetches is c. -/
def copyback (c : List Byte) : List Event := fetch c.length ++ load c

end Sys2Proof.Machine.HostScript
end

