-- ==== Sys2Proof/Tests/Slice0.lean ====
section
/-! SUPPORT. Tests of the model, each with an expected value from spec/ (95_test_vectors.md names them by
letter and number), and for every obligation with hypotheses a state that meets them all. -/

namespace Sys2Proof.Tests

open Sys2Proof.Machine Sys2Proof.Codec

/-! ### Well-formedness: each check refuses an ill-formed sequence -/

/-- A command is no record (30_encoding.md R70). -/
theorem test_wellFormed_refuses_command : Stream.wellFormed [.nop 0#30] = false := by decide
theorem test_wellFormed_refuses_command_after_record :
    Stream.wellFormed [.lit 5#8, .encode 0#30] = false := by decide
theorem test_wellFormed_refuses_command_before_record :
    Stream.wellFormed [.decode 0#30, .lit 5#8] = false := by decide
/-- A literal before a record of its own value would be read as a marker (41_decode.md R133). -/
theorem test_wellFormed_refuses_literal_twice :
    Stream.wellFormed [.lit 5#8, .lit 5#8] = false := by decide
theorem test_wellFormed_refuses_literal_before_run :
    Stream.wellFormed [.lit 5#8, .run 5#8 0#8] = false := by decide
/-- After a run record anything may follow (41_decode.md R140). -/
theorem test_wellFormed_accepts_after_run :
    Stream.wellFormed [.run 5#8 0#8, .lit 5#8] = true := by decide
/-- Not so in a canonical stream, unless the run is full (41_decode.md R146, D17, E12). -/
theorem test_canonical_refuses_short_run_before_its_value :
    Stream.canonical [.run 5#8 0#8, .lit 5#8] = false := by decide
theorem test_canonical_accepts_full_run_before_its_value :
    Stream.canonical [.run 0xAA#8 0xFF#8, .lit 0xAA#8] = true := by decide
theorem test_canonical_refuses_command : Stream.canonical [.reserved 0#30] = false := by decide

/-! ### Decoding: words written out from the spec's encodings (30_encoding.md R70, R74, R75) -/

theorem test_decode_nop :
    decode (.command 0b00000000000000000000000000000000#32) = .ok (.nop 0#30, []) := by decide
theorem test_decode_encode :
    decode (.command 0b00000000000000000000000000000001#32) = .ok (.encode 0#30, []) := by decide
/-- C5: CMD = 0x00000005. -/
theorem test_decode_encode_high_bits :
    decode (.command 0b00000000000000000000000000000101#32) = .ok (.encode 1#30, []) := by decide
theorem test_decode_decode :
    decode (.command 0b00000000000000000000000000000010#32) = .ok (.decode 0#30, []) := by decide
/-- C4: CMD = 0xFFFFFFFF. -/
theorem test_decode_reserved :
    decode (.command 0b11111111111111111111111111111111#32)
      = .ok (.reserved 0b111111111111111111111111111111#30, []) := by decide
theorem test_decode_lit :
    decode (.stream [0b01011010#8]) = .ok (.lit 0b01011010#8, []) := by decide
/-- S2: the record of five 05. -/
theorem test_decode_run :
    decode (.stream [0b00000101#8, 0b00000101#8, 0b00000011#8])
      = .ok (.run 0b00000101#8 0b00000011#8, []) := by decide
/-- D20: a run record, then another value. -/
theorem test_decode_leaves_the_rest :
    decode (.stream [0x07#8, 0x07#8, 0x01#8, 0x08#8]) = .ok (.run 0x07#8 0x01#8, [0x08#8]) := by
  decide
/-- D13: a marker at the end. -/
theorem test_decode_truncated :
    decode (.stream [0x05#8, 0x05#8]) = .error (.truncatedMarker 0x05#8) := by decide
theorem test_decode_end : decode (.stream []) = .error .endOfStream := by decide

theorem test_encode_run :
    encode (.run 0x05#8 0x03#8) = .stream [0x05#8, 0x05#8, 0x03#8] := by decide
theorem test_encode_decode_command : encode (.decode 0#30) = .command 0x00000002#32 := by decide
/-- The first byte of the stream is bits 7..0 of the table's word (log 14). -/
theorem test_table_run : decodeTableWord 24 0x030505 = some (.run 0x05#8 0x03#8) := by decide
theorem test_table_lit : decodeTableWord 8 0x5A = some (.lit 0x5A#8) := by decide
theorem test_table_reserved : decodeTableWord 32 3 = some (.reserved 0#30) := by decide
/-- D11: the split run of 259. -/
theorem test_decodeStream :
    decodeStream [0xAA#8, 0xAA#8, 0xFF#8, 0xAA#8, 0xAA#8, 0x00#8]
      = .ok [.run 0xAA#8 0xFF#8, .run 0xAA#8 0x00#8] := by decide

/-! ### The codec (95_test_vectors.md L1, L2) -/

/-- E7, E8, E16, E19. -/
theorem test_enc_E7 : enc [5#8, 5#8, 0#8] = [5#8, 5#8, 0#8, 0#8] := by decide
theorem test_enc_E16 : enc [1#8, 1#8, 2#8, 2#8] = [1#8, 1#8, 0#8, 2#8, 2#8, 0#8] := by decide
theorem test_enc_E19 :
    enc [9#8, 9#8, 3#8, 9#8, 9#8] = [9#8, 9#8, 0#8, 3#8, 9#8, 9#8, 0#8] := by decide
/-- E13: the chunks of a run of 259. -/
theorem test_chunks_E13 :
    (chunks 257 259).flatMap (record 0xAA#8) = [0xAA#8, 0xAA#8, 0xFF#8, 0xAA#8, 0xAA#8, 0x00#8] := by
  decide
theorem test_dec_D7 : dec [5#8, 5#8, 3#8] = .ok [5#8, 5#8, 5#8, 5#8, 5#8] := by decide
theorem test_dec_D17 : dec [5#8, 5#8, 0#8, 5#8] = .ok [5#8, 5#8, 5#8] := by decide
theorem test_dec_D18 : dec [5#8, 5#8, 0#8, 5#8, 5#8] = .malformed 4 := by decide
/-- C17, C19: which error comes first. -/
theorem test_bounded_C17 : decBounded 0 [5#8, 5#8] = .overflow 0 := by decide
theorem test_bounded_C19 : decBounded 1 [5#8, 5#8] = .malformed 1 := by decide
theorem test_bounded_C15 : decBounded 4 [5#8, 5#8, 3#8] = .overflow 1 := by decide
/-- C9, C12. -/
theorem test_bounded_C9 : encBounded 2 [5#8, 5#8] = .overflow 2 := by decide
theorem test_bounded_C12 : encBounded 3 [1#8, 1#8, 2#8] = .overflow 3 := by decide

/-! ### States to test on -/

/-- A block of four bytes of IN and three of OUT, idle, with these bytes loaded. -/
def loaded (bytes : List Byte) : State :=
  { State.resetWith ⟨4, 3⟩ with
      inBuf := Memory.setAll [] 0 bytes, inLen := BitVec.ofNat 32 bytes.length }

/-- A running ENCODE at its start. -/
def encoding (bytes : List Byte) : State := startEncode (loaded bytes)

/-- A running DECODE at its start. -/
def decoding (bytes : List Byte) : State := startDecode (loaded bytes)

/-- The decoder at the marker of `[5, 5]`, one byte turn after its start. -/
def atMarker (rest : List Byte) : State := byteDecodeTurn (decoding (5#8 :: 5#8 :: rest))

/-- The encoder past two bytes `v`. -/
def openPair (v : Byte) (rest : List Byte) : State :=
  { encoding (v :: v :: rest) with ipos := 2#32, eOpen := true, eVal := v, eRep := true }

/-- An idle block after a completed command that left `[5, 5]` in OUT. -/
def completed : State :=
  { loaded [] with done := true, outLen := 2#32, outBuf := [(0, 5#8), (1, 5#8)] }

/-- The state an outcome goes on with. -/
def after : Host.Outcome State Fault Refusal → State
  | .next t => t
  | .fault _ | .refused _ => State.resetWith ⟨0, 0⟩

/-! ### One step of each instruction -/

/-- C2: a NOP after a success. -/
theorem test_nop_keeps_result :
    (after (exec (.nop 7#30) completed)).statusWord = 0x00000002#32 := by decide
theorem test_nop_while_busy : (after (exec (.nop 0#30) (encoding [5#8]))).busy = true := by decide
theorem test_encode_starts :
    let t := after (exec (.encode 0#30) (loaded [5#8, 5#8]))
    t.statusWord = 0x00000001#32 ∧ t.op = .enc := by decide
/-- C7: N = 5 and IN_CAP = 4. -/
theorem test_encode_badLen :
    let t := after (exec (.encode 0#30) { loaded [] with inLen := 5#32 })
    t.statusWord = 0x00000012#32 ∧ t.outLen = 0#32 ∧ t.errPos = 0#32 := by decide
/-- D2: the sentinel of FF is FE. -/
theorem test_decode_starts_with_sentinel :
    let t := after (exec (.decode 0#30) (loaded [0xFF#8]))
    t.statusWord = 0x00000001#32 ∧ t.dPrev = 0xFE#8 ∧ t.dArmed = true := by decide
/-- D1: an empty input completes at once. -/
theorem test_decode_empty :
    let t := after (exec (.decode 0#30) (loaded []))
    t.statusWord = 0x00000002#32 ∧ t.outLen = 0#32 ∧ t.op = .none := by decide
/-- C6: BADCMD comes before BADLEN. -/
theorem test_reserved_before_length :
    let t := after (exec (.reserved 0#30) { loaded [] with inLen := 5#32 })
    t.statusWord = 0x0000000E#32 ∧ t.errPos = 0#32 := by decide
theorem test_reserved_while_busy :
    (after (exec (.reserved 0#30) (decoding [5#8]))).statusWord = 0x00000001#32 := by decide
theorem test_lit_puts :
    let t := after (exec (.lit 0x5A#8) (decoding [0x5A#8]))
    t.outBuf = [(0, 0x5A#8)] ∧ t.ipos = 1#32 ∧ t.dPrev = 0x5A#8 := by decide
/-- C17: no room at all. -/
theorem test_lit_overflow :
    let t := after (exec (.lit 5#8) { decoding [5#8] with opos := 3#32 })
    t.statusWord = 0x0000000A#32 ∧ t.errPos = 0#32 := by decide
theorem test_run_puts :
    let t := after (exec (.run 5#8 1#8) (decoding [5#8, 5#8, 1#8]))
    t.outBuf = [(0, 5#8), (1, 5#8), (2, 5#8)] ∧ t.ipos = 3#32 ∧ t.dArmed = false := by decide
/-- C15: the marker's Puts overflow, at the marker's position. -/
theorem test_run_overflow :
    let t := after (exec (.run 5#8 3#8) (decoding [5#8, 5#8, 3#8]))
    t.statusWord = 0x0000000A#32 ∧ t.errPos = 1#32 := by decide

/-! ### The engine and the host port -/

/-- C10: `[05, 05]` encodes into three bytes of OUT. -/
theorem test_encode_finish :
    let t := after (engineTurn (openPair 5#8 []))
    t.statusWord = 0x00000002#32 ∧ t.outLen = 3#32 ∧
      t.outBuf = [(0, 5#8), (1, 5#8), (2, 0#8)] := by decide
/-- The 258th of a run closes a full chunk (E12). -/
theorem test_encode_full_chunk :
    let t := after (engineTurn { openPair 0xAA#8 [0xAA#8] with eCnt := 0xFF#8 })
    t.outBuf = [(0, 0xAA#8), (1, 0xAA#8), (2, 0xFF#8)] ∧ t.eRep = false ∧ t.eCnt = 0#8 := by decide
/-- D13, C19: MALFORMED at N - 1. -/
theorem test_truncated :
    let t := after (engineTurn (decoding [5#8, 5#8]))
    t.statusWord = 0x00000006#32 ∧ t.errPos = 1#32 ∧ t.outLen = 0#32 := by decide
/-- H1, H3, H7, H9, H10. -/
theorem test_reads :
    readPort completed .w32 0x000#32 = .word 0x524C4507#32 ∧
    readPort completed .w32 0x020#32 = .word 0#32 ∧
    readPort completed .w32 0x018#32 = .word 4#32 ∧
    readPort completed .w8 0x40000004#32 = .word 0#32 ∧
    readPort completed .w8 0xC0000000#32 = .word 0#32 := by decide
/-- H12, H13 and a byte below OUT_LEN. -/
theorem test_reads_of_buffers :
    readPort completed .w8 0x80000001#32 = .word 5#32 ∧
    readPort completed .w8 0x80000002#32 = .any ∧
    readPort completed .w32 0x40000000#32 = .any := by decide
/-- H5, H6, H8, H11 as host scripts (30_encoding.md R78). -/
theorem test_writes :
    (hostWrite .w32 0x00C#32 0xFFFFFFFF#32 completed).inLen = 0xFFFFFFFF#32 ∧
    (hostWrite .w32 0x008#32 0#32 completed).statusWord = 0x00000002#32 ∧
    (hostWrite .w8 0x40000003#32 0x5A#32 completed).inBuf = [(3, 0x5A#8)] ∧
    (hostWrite .w8 0x80000000#32 0#32 completed).outBuf = completed.outBuf := by decide
/-- `LOAD [05, 05]` is three accesses, the last one IN_LEN's (30_encoding.md R79). -/
theorem test_load :
    HostScript.load [5#8, 5#8] =
      [.access (.write .w8 0x40000000#32 5#32), .access (.write .w8 0x40000001#32 5#32),
       .access (.write .w32 0x00C#32 2#32)] := by decide

/-! ### Fetching: a table word is the first instruction after reset -/

theorem test_fetch_lit :
    step (State.reset.withFetchWord 8 0x5A)
      = exec (.lit 0x5A#8) ((State.reset.withFetchWord 8 0x5A).withInput []) := by rfl
theorem test_fetch_reserved :
    step (State.reset.withFetchWord 32 3)
      = exec (.reserved 0#30) ((State.reset.withFetchWord 32 3).withInput []) := by rfl

/-! ### The invariant's states -/

theorem inv_loaded : Inv (loaded [5#8, 5#8, 3#8, 1#8]) := by constructor <;> decide
theorem inv_completed : Inv completed := by constructor <;> decide
theorem inv_encoding : Inv (encoding [5#8, 5#8, 3#8]) := by constructor <;> decide
theorem inv_decoding : Inv (decoding [5#8, 5#8, 1#8]) := by constructor <;> decide
theorem inv_openPair : Inv (openPair 5#8 [7#8]) := by constructor <;> decide

/-! ### A witness for the hypotheses of each obligation, clause by clause -/

/-- A host write of a CMD word as the next event. -/
def withCommand (w : Word) (s : State) : State := s.withInput [.access (.write .w32 0x004#32 w)]

theorem witness_ResetAbandonsTheCommand :
    ((decoding [5#8]).withInput [.reset]).legalCaps ∧
      ((decoding [5#8]).withInput [.reset]).input = [.reset] := by
  unfold State.legalCaps; decide

theorem witness_EveryStepKeepsInvariant : ∃ s t, Inv s ∧ step s = .next t ∧ s.op ≠ .none :=
  ⟨_, _, inv_decoding, rfl, by decide⟩
theorem witness_InvariantStatesContinue : Inv (encoding [5#8, 5#8, 3#8]) := inv_encoding

/-- Idle, and the step starts an ENCODE, starts a DECODE, or stays idle. -/
theorem witness_UnspecifiedRegistersAreNotRead :
    (loaded [5#8]).op = .none ∧ (after (step (withCommand 1#32 (loaded [5#8])))).op = .enc ∧
      (after (step (withCommand 2#32 (loaded [5#8])))).op = .dec ∧
      (after (step (withCommand 0#32 (loaded [5#8])))).op = .none := by decide

theorem witness_StatusInvariantsHold :
    (Inv completed ∧ Inv (errorCompletion .badCmd 0#32 completed) ∧
      (errorCompletion .badCmd 0#32 completed).statusWord.extractLsb' 2 3 ≠ 0#3) ∧
    ∃ s t, s.op = .none ∧ s.statusWord = 0#32 ∧ step s = .next t ∧
      s.input = [.access (.write .w32 0x004#32 0xFFFFFFFC#32)] ∧
      (0xFFFFFFFC#32).extractLsb' 0 2 = 0#2 ∧ completed.busy = false ∧ completed.done = true :=
  ⟨⟨inv_completed, inv_error inv_completed.base (by decide), by decide⟩,
    withCommand 0xFFFFFFFC#32 (loaded []), _, by decide, by decide, rfl, by decide, by decide,
    by decide, by decide⟩

/-- Writes to ID, IN_CAP and OUT_CAP. -/
theorem witness_ConstantRegistersNeverChange :
    ∀ a ∈ [0x000#32, 0x018#32, 0x01C#32],
      (a = 0x000#32 ∨ a = 0x018#32 ∨ a = 0x01C#32) ∧
      (completed.withInput [.access (.write .w32 a 7#32)]).input = [.access (.write .w32 a 7#32)] := by
  simp

/-- The first and the last reserved offset. -/
theorem witness_ReservedOffsetsReadZero :
    ∀ a ∈ [0x020#32, 0xFFC#32], 0x020 ≤ a.toNat ∧ a.toNat ≤ 0xFFC ∧ a.toNat % 4 = 0 ∧
      (completed.withInput [.access (.write .w32 a 7#32)]).input = [.access (.write .w32 a 7#32)] ∧
      (completed.withInput [.access (.read .w32 a)]).input = [.access (.read .w32 a)] := by simp

/-- Reserved registers; writes of CMD, IN_LEN, and the first and last of the other registers; a narrow
access at the first offset and a misaligned one at the last. -/
theorem witness_RegisterWindowAccesses :
    (∀ a ∈ [0x020#32, 0xFFC#32], 0x020 ≤ a.toNat ∧ a.toNat ≤ 0xFFC ∧ a.toNat % 4 = 0) ∧
    (∀ a ∈ [0x000#32, 0x004#32, 0x00C#32, 0xFFC#32], a.toNat ≤ 0xFFC ∧ a.toNat % 4 = 0 ∧
      (completed.withInput [.access (.write .w32 a 7#32)]).input = [.access (.write .w32 a 7#32)]) ∧
    completed.busy = false ∧
    ((0x000#32).toNat ≤ 0xFFF ∧ Width.w8 ≠ .w32) ∧
    ((0xFFF#32).toNat ≤ 0xFFF ∧ (0xFFF#32).toNat % 4 ≠ 0) := by
  simp [completed, loaded, State.resetWith]

/-- IN_LEN written while idle and while BUSY, and changed by a write and by reset. -/
theorem witness_InLenHoldsWhatIsWritten :
    completed.busy = false ∧ (encoding [5#8]).busy = true ∧
    (after (step (completed.withInput [.access (.write .w32 0x00C#32 9#32)]))).inLen ≠ completed.inLen ∧
    (after (step ((loaded [5#8]).withInput [.reset]))).inLen ≠ (loaded [5#8]).inLen := by decide

/-- The first and the last byte of IN; idle and BUSY; narrow and wide. -/
theorem witness_InWindowAccesses :
    completed.legalCaps ∧ 0 < completed.inCap.toNat ∧ 3 < completed.inCap.toNat ∧
      completed.busy = false ∧ (encoding [5#8]).busy = true ∧ (encoding [5#8]).legalCaps ∧
      Width.w16 ≠ .w8 := by
  unfold State.legalCaps; decide

/-- The last byte below OUT_LEN, the first byte above it, BUSY, no completion, and an error. -/
theorem witness_OutWindowAccesses :
    (Inv completed ∧ 1 < completed.outCap.toNat ∧ completed.busy = false ∧ completed.done = true ∧
      completed.err = .noError ∧ 1 < completed.outLen.toNat) ∧
    (completed.outLen.toNat ≤ 2 ∧ 2 < completed.outCap.toNat) ∧
    (Inv (encoding [5#8, 5#8, 3#8]) ∧ (encoding [5#8, 5#8, 3#8]).busy = true ∧
      0 < (encoding [5#8, 5#8, 3#8]).outCap.toNat) ∧
    (Inv (loaded [5#8, 5#8, 3#8, 1#8]) ∧ (loaded [5#8, 5#8, 3#8, 1#8]).done = false) ∧
    (Inv (errorCompletion .badCmd 0#32 completed) ∧
      (errorCompletion .badCmd 0#32 completed).err ≠ .noError) :=
  ⟨⟨inv_completed, by decide⟩, by decide, ⟨inv_encoding, by decide⟩, ⟨inv_loaded, by decide⟩,
    inv_error inv_completed.base (by decide), by decide⟩

/-- The offsets next to each window. -/
theorem witness_UnmappedOffsetsReadZero :
    ∀ a ∈ [0x1000#32, 0x3FFFFFFF#32, 0x40000004#32, 0x7FFFFFFF#32, 0x80000003#32, 0xFFFFFFFF#32],
      0x1000 ≤ a.toNat ∧
      ¬(0x40000000 ≤ a.toNat ∧ a.toNat < 0x40000000 + completed.inCap.toNat) ∧
      ¬(0x80000000 ≤ a.toNat ∧ a.toNat < 0x80000000 + completed.outCap.toNat) := by
  simp [completed, loaded, State.resetWith]

/-- A read that returns a value, and one that returns any value; an engine turn of an operation that goes
on; and a write that stores. -/
theorem witness_ReadsHaveNoSideEffect :
    (∃ s t, Inv s ∧ engineTurn s = .next t ∧ t.op = s.op ∧ s.op ≠ .none) ∧
    (completed.withInput [.access (.write .w8 0x40000003#32 1#32)]).input
      = [.access (.write .w8 0x40000003#32 1#32)] ∧ Width.w8 ≠ .w32 ∧
    (completed.withInput [.access (.read .w8 0x80000001#32)]).input
      = [.access (.read .w8 0x80000001#32)] ∧
    readPort completed .w8 0x80000001#32 = .word 5#32 ∧
    (completed.withInput [.access (.read .w8 0x80000002#32)]).input
      = [.access (.read .w8 0x80000002#32)] ∧
    readPort completed .w8 0x80000002#32 = .any :=
  ⟨⟨_, _, inv_encoding, rfl, by decide, by decide⟩, by decide⟩

theorem witness_WritesWhileBusyAreIgnored :
    (withCommand 3#32 (decoding [5#8])).busy = true ∧
    (withCommand 3#32 (decoding [5#8])).input = [.access (.write .w32 0x004#32 3#32)] := by decide

/-- A NOP and a new IN_LEN after a completed command. -/
theorem witness_CompletedResultStays :
    (∃ s t, s.op = .none ∧ step s = .next t ∧ s.input = [.access (.write .w32 0x004#32 4#32)] ∧
      (4#32).extractLsb' 0 2 = 0#2) ∧
    ∃ s t, s.op = .none ∧ step s = .next t ∧ s.input = [.access (.write .w32 0x00C#32 4#32)] :=
  ⟨⟨withCommand 4#32 completed, _, by decide, rfl, by decide, by decide⟩,
    completed.withInput [.access (.write .w32 0x00C#32 4#32)], _, by decide, rfl, by decide⟩

theorem witness_CommandIgnoresHighBits :
    (0xFFFFFFFC#32).extractLsb' 0 2 = 0#2 ∧ (0xFFFFFFFD#32).extractLsb' 0 2 = 1#2 ∧
    (0xFFFFFFFE#32).extractLsb' 0 2 = 2#2 ∧ (0xFFFFFFFF#32).extractLsb' 0 2 = 3#2 := by decide

/-- E12's records: a full run, then its value again. -/
theorem witness_StreamDecodesToItsRecords :
    Stream.wellFormed [.run 0xAA#8 0xFF#8, .lit 0xAA#8] = true := by decide
theorem witness_StreamsParseUniquely :
    decodeStream [0x01#8, 0x02#8] = .ok [.lit 0x01#8, .lit 0x02#8] ∧
    decodeStream [0x01#8, 0x02#8, 0x02#8] = .error (.truncatedMarker 0x02#8) ∧
    dec [0x01#8, 0x02#8, 0x02#8] = .malformed 2 := by decide
theorem witness_RecordsStandForTheirRuns :
    Stream.wellFormed [.run 5#8 0#8, .lit 0#8] = true ∧ 2 ≤ 257 ∧ 257 ≤ 257 := by decide

/-- A command as the next event, and a record at the scan index in an engine turn of either kind. -/
theorem witness_StepRunsTheDecodedInstruction :
    (withCommand 1#32 (loaded [])).input = [.access (.write .w32 0x004#32 1#32)] ∧
    (decoding [5#8, 5#8, 1#8]).op = .dec ∧ (decoding [5#8, 5#8, 1#8]).input = [] ∧
    ((decoding [5#8, 5#8, 1#8]).withInput [.engine]).input = [.engine] ∧
    (decoding [5#8, 5#8, 1#8]).ipos.toNat < (decoding [5#8, 5#8, 1#8]).inLen.toNat ∧
    (decoding [5#8, 5#8, 1#8]).isMarker (decoding [5#8, 5#8, 1#8]).currentByte = false ∧
    decodeRecord (((decoding [5#8, 5#8, 1#8]).inputSeq.drop 0).take 3) = .ok (.run 5#8 1#8, []) := by
  decide

theorem witness_FetchWordIsRunNext :
    24 ≤ 32 ∧ decodeTableWord 24 0x010505 = some (.run 5#8 1#8) ∧
    decodeTableWord 32 2 = some (.decode 0#30) := by decide

theorem witness_ReservedCommandIsBadCmd : completed.busy = false := by decide
/-- IN_LEN = IN_CAP. -/
theorem witness_EncodeStarts :
    (loaded [5#8, 5#8, 3#8, 1#8]).busy = false ∧
      (loaded [5#8, 5#8, 3#8, 1#8]).inLen.toNat ≤ (loaded [5#8, 5#8, 3#8, 1#8]).inCap.toNat := by
  decide
/-- N = 0 and N = IN_CAP. -/
theorem witness_DecodeStarts :
    ((loaded []).busy = false ∧ (loaded []).inLen.toNat ≤ (loaded []).inCap.toNat ∧
      (loaded []).inLen = 0#32) ∧
    ((loaded [5#8, 5#8, 3#8, 1#8]).busy = false ∧ (loaded [5#8, 5#8, 3#8, 1#8]).inLen ≠ 0#32 ∧
      (loaded [5#8, 5#8, 3#8, 1#8]).inLen.toNat ≤ (loaded [5#8, 5#8, 3#8, 1#8]).inCap.toNat) := by
  decide
/-- IN_LEN = IN_CAP + 1 and IN_LEN = IN_CAP. -/
theorem witness_LengthAboveCapacityIsBadLen :
    (loaded []).inCap.toNat < ({ loaded [] with inLen := 5#32 } : State).inLen.toNat ∧
    ({ loaded [] with inLen := 4#32 } : State).inLen = (loaded []).inCap ∧
    (loaded []).busy = false := by decide
/-- Each row of the checks. -/
theorem witness_CommandChecksInOrder :
    (encoding [5#8]).busy = true ∧ (loaded [5#8]).busy = false ∧
    (4#32).extractLsb' 0 2 = 0#2 ∧ (7#32).extractLsb' 0 2 = 3#2 ∧ (5#32).extractLsb' 0 2 = 1#2 ∧
    (6#32).extractLsb' 0 2 = 2#2 ∧
    (loaded []).inCap.toNat < ({ loaded [] with inLen := 5#32 } : State).inLen.toNat ∧
    (loaded [5#8]).inLen.toNat ≤ (loaded [5#8]).inCap.toNat ∧ (loaded [5#8]).inLen ≠ 0#32 ∧
    (loaded []).inLen = 0#32 := by decide
theorem witness_EveryErrorIsAnErrorCompletion :
    ∃ s t, step s = .next t ∧ s.err = .noError ∧ t.err ≠ .noError :=
  ⟨decoding [5#8, 5#8], _, rfl, by decide, by decide⟩

/-- The last byte of OUT, and no byte left. -/
theorem witness_LiteralRecordEffect :
    ({ decoding [5#8] with opos := 2#32 } : State).opos ≠ (decoding [5#8]).outCap ∧
    ({ decoding [5#8] with opos := 3#32 } : State).opos = (decoding [5#8]).outCap := by decide
/-- The record fits exactly. -/
theorem witness_RunRecordEffect :
    (decoding [5#8, 5#8, 1#8]).opos.toNat + ((1#8).toNat + 2)
      ≤ (decoding [5#8, 5#8, 1#8]).outCap.toNat := by decide
/-- One byte short, and no byte left. -/
theorem witness_RunRecordOverflow :
    ((decoding [5#8, 5#8, 2#8]).opos.toNat ≤ (decoding [5#8, 5#8, 2#8]).outCap.toNat ∧
      (decoding [5#8, 5#8, 2#8]).outCap.toNat
        < (decoding [5#8, 5#8, 2#8]).opos.toNat + ((2#8).toNat + 2)) ∧
    ({ decoding [5#8, 5#8, 2#8] with opos := 3#32 } : State).opos.toNat
      ≤ (decoding [5#8, 5#8, 2#8]).outCap.toNat := by decide
/-- Boundary states with an equal byte next; and, one byte turn later, at a marker that is the last byte, one
whose Puts fit exactly, and one whose Puts are one too many. -/
theorem witness_MarkerStepEffect :
    (∀ s ∈ [decoding [5#8, 5#8], decoding [5#8, 5#8, 1#8], decoding [5#8, 5#8, 2#8]],
      s.op = .dec ∧ s.input = [] ∧ s.ipos.toNat + 1 < s.inLen.toNat ∧
        s.inByte (s.ipos.toNat + 1) = s.inByte s.ipos.toNat ∧ s.opos ≠ s.outCap) ∧
    (∀ m ∈ [atMarker [], atMarker [1#8], atMarker [2#8]],
      m.op = .dec ∧ m.ipos.toNat < m.inLen.toNat ∧ m.opos.toNat ≤ m.outCap.toNat ∧
        m.dArmed = true ∧ m.inByte m.ipos.toNat = m.dPrev) ∧
    (atMarker []).ipos.toNat + 1 = (atMarker []).inLen.toNat ∧
    (atMarker [1#8]).ipos.toNat + 1 ≠ (atMarker [1#8]).inLen.toNat ∧
    (atMarker [1#8]).opos.toNat + ((1#8).toNat + 1) = (atMarker [1#8]).outCap.toNat ∧
    (atMarker [2#8]).ipos.toNat + 1 ≠ (atMarker [2#8]).inLen.toNat ∧
    (atMarker [2#8]).opos.toNat + ((2#8).toNat + 1) = (atMarker [2#8]).outCap.toNat + 1 := by decide
/-- The boundary states of the witness above satisfy the invariant. -/
theorem witness_MarkerStepEffect_inv :
    Inv (decoding [5#8, 5#8]) ∧ Inv (decoding [5#8, 5#8, 1#8]) ∧ Inv (decoding [5#8, 5#8, 2#8]) :=
  ⟨by constructor <;> decide, inv_decoding, by constructor <;> decide⟩
/-- Room for the literal, and none. -/
theorem witness_TruncatedMarkerIsMalformed :
    (∀ s ∈ [decoding [5#8, 5#8], { decoding [5#8, 5#8] with opos := 3#32 }],
      s.op = .dec ∧ s.input = [] ∧ s.ipos.toNat + 2 = s.inLen.toNat ∧
        s.opos.toNat ≤ s.outCap.toNat ∧ s.isMarker s.currentByte = false ∧
        s.inByte s.ipos.toNat = s.inByte (s.ipos.toNat + 1)) ∧
    (decoding [5#8, 5#8]).opos ≠ (decoding [5#8, 5#8]).outCap ∧
    ({ decoding [5#8, 5#8] with opos := 3#32 } : State).opos = (decoding [5#8, 5#8]).outCap := by
  decide
theorem witness_DecodeFinishCompletes :
    ({ decoding [5#8] with ipos := 1#32 } : State).op = .dec ∧
    ({ decoding [5#8] with ipos := 1#32 } : State).input = [] ∧
    ({ decoding [5#8] with ipos := 1#32 } : State).ipos = (decoding [5#8]).inLen := by decide
theorem witness_SentinelDiffersFromItsByte : (0xFE#8 : Byte) ≠ 0xFF#8 := by decide
theorem witness_NeverAMarkerAtARecordBoundary :
    ((loaded [0xFF#8]).busy = false ∧ (loaded [0xFF#8]).inLen.toNat ≤ (loaded [0xFF#8]).inCap.toNat ∧
      (loaded [0xFF#8]).inLen ≠ 0#32) ∧
    (decoding [5#8]).opos.toNat + ((1#8).toNat + 2) ≤ (decoding [5#8]).outCap.toNat ∧
    (decoding [5#8]).opos ≠ (decoding [5#8]).outCap := by decide

/-- The cases of the ENCODE step: the first byte; a second occurrence; a third; a full chunk whose record
fits exactly; another byte, whose record does not fit. -/
theorem witness_EncodeStepEffect :
    (∀ s ∈ [encoding [5#8], { encoding [5#8, 5#8] with ipos := 1#32, eOpen := true, eVal := 5#8 },
        openPair 5#8 [5#8], { openPair 5#8 [5#8] with eCnt := 0xFE#8 },
        { openPair 5#8 [5#8] with eCnt := 0xFF#8 }, { openPair 5#8 [7#8] with opos := 1#32 }],
      s.op = .enc ∧ s.input = [] ∧ s.ipos.toNat < s.inLen.toNat ∧ s.opos.toNat ≤ s.outCap.toNat) ∧
    (encoding [5#8]).eOpen = false ∧
    (openPair 5#8 [5#8]).inByte 2 = (openPair 5#8 [5#8]).eVal ∧
    ({ openPair 5#8 [5#8] with eCnt := 0xFE#8 } : State).eCnt ≠ 0xFF#8 ∧
    (openPair 5#8 [7#8]).inByte 2 ≠ (openPair 5#8 [7#8]).eVal ∧
    (openPair 5#8 [5#8]).opos.toNat + 3 = (openPair 5#8 [5#8]).outCap.toNat ∧
    (openPair 5#8 [7#8]).outCap.toNat < ({ openPair 5#8 [7#8] with opos := 1#32 } : State).opos.toNat + 3 := by
  decide
/-- No input; a record that fits exactly; one that does not. -/
theorem witness_EncodeFinishEffect :
    (∀ s ∈ [encoding [], openPair 5#8 [], { openPair 5#8 [] with opos := 1#32 }],
      s.op = .enc ∧ s.input = [] ∧ s.ipos = s.inLen ∧ s.opos.toNat ≤ s.outCap.toNat) ∧
    (openPair 5#8 []).opos.toNat + 3 = (openPair 5#8 []).outCap.toNat ∧
    (openPair 5#8 []).outCap.toNat < ({ openPair 5#8 [] with opos := 1#32 } : State).opos.toNat + 3 := by
  decide
/-- A full chunk, whose counter must not wrap, and the largest count that may still grow. -/
theorem witness_EncoderCounterNeverWraps :
    (∃ s t, s.op = .enc ∧ step s = .next t ∧ t.op = .enc ∧ s.eRep = true ∧ s.eCnt = 0xFF#8 ∧
      s.currentByte = s.eVal ∧ t.eRep = false) ∧
    ∃ s t, s.op = .enc ∧ step s = .next t ∧ t.op = .enc ∧ s.eRep = true ∧ s.eCnt = 0xFE#8 ∧
      t.eRep = true ∧ t.eCnt = 0xFF#8 :=
  ⟨⟨{ openPair 5#8 [5#8] with eCnt := 0xFF#8 }, _, by decide, rfl, by decide⟩,
    { openPair 5#8 [5#8] with eCnt := 0xFE#8 }, _, by decide, rfl, by decide⟩

theorem witness_EngineLeavesInputAlone :
    ∃ s t, Inv s ∧ engineTurn s = .next t ∧ 3 = s.outCap.toNat :=
  ⟨_, _, inv_decoding, rfl, by decide⟩
theorem witness_ScanNeverGoesBack :
    ∃ s t, Inv s ∧ s.op ≠ .none ∧ step s = .next t ∧ t.op ≠ .none :=
  ⟨_, _, inv_decoding, by decide, rfl, by decide⟩
theorem witness_EveryOperationCompletes :
    ∃ s, Inv s ∧ s.op ≠ .none ∧ s.input = [] := ⟨_, inv_openPair, by decide, by decide⟩
/-- An idle state with IN_LEN = IN_CAP: for EncodeCommandComputesEnc and DecodeCommandComputesDec. -/
theorem witness_CommandsCompute :
    ∃ s, Inv s ∧ s.busy = false ∧ s.input = [] ∧ s.inLen.toNat ≤ s.inCap.toNat :=
  ⟨_, inv_loaded, by decide, by decide, by decide⟩
/-- Two states that differ in what an earlier command left. -/
theorem witness_ResultDependsOnlyOnOperands :
    ∃ s s', Inv s ∧ Inv s' ∧ s.busy = false ∧ s'.busy = false ∧ s.input = [] ∧ s'.input = [] ∧
      s.inputSeq = s'.inputSeq ∧ s.inLen = s'.inLen ∧ s.inCap = s'.inCap ∧ s.outCap = s'.outCap ∧
      s.result ≠ s'.result :=
  ⟨{ completed with inLen := 0#32 }, loaded [], inv_completed, by constructor <;> decide, by decide⟩
theorem witness_InterleavedReadsDoNotMatter :
    ∃ (s : State) (events : List Event), Inv s ∧ s.op ≠ .none ∧ s.input = [] ∧
      (∀ e ∈ events, e = .engine ∨ ∃ w a, e = .access (.read w a)) ∧ events.length = 2 :=
  ⟨_, [.access (.read .w32 0x008#32), .engine], inv_decoding, by decide, by decide, by simp, rfl⟩
theorem witness_RecordTurnsAgreeWithByteTurns :
    ∃ s, Inv s ∧ s.op = .dec ∧ s.input = [] := ⟨_, inv_decoding, by decide, by decide⟩
/-- `[05, 05]` through a block with three bytes of OUT, and its encoding through another. -/
theorem witness_RoundTripThroughTheBlock :
    ∃ s s', Inv s ∧ Inv s' ∧ s.busy = false ∧ s'.busy = false ∧ s.input = [] ∧ s'.input = [] ∧
      s.inLen.toNat ≤ s.inCap.toNat ∧ (enc s.inputSeq).length = s.outCap.toNat ∧
      s'.inLen.toNat = (enc s.inputSeq).length ∧ s'.inputSeq = enc s.inputSeq ∧
      s'.inLen.toNat ≤ s'.inCap.toNat ∧ s.inLen.toNat ≤ s'.outCap.toNat :=
  ⟨loaded [5#8, 5#8], loaded [5#8, 5#8, 0#8], by constructor <;> decide, by constructor <;> decide,
    by decide⟩

theorem witness_DecodedLengthBound : dec [5#8, 5#8, 3#8] = .ok (List.replicate 5 5#8) := by decide
theorem witness_NoRepetitionEncodesToItself :
    ∀ i, i < 2 → [1#8, 2#8, 3#8][i]? ≠ [1#8, 2#8, 3#8][i + 1]? := by decide
theorem witness_MalformedOnlyAtTheEnd : dec [1#8, 2#8, 2#8] = .malformed 2 := by decide
/-- C10 and C9. -/
theorem witness_EncoderOverflowsExactlyAboveCapacity :
    (enc [5#8, 5#8]).length ≤ 3 ∧ 2 < (enc [5#8, 5#8]).length := by decide
/-- C16, C15, C19 and C17. -/
theorem witness_DecoderOverflowsExactlyAboveCapacity :
    dec [5#8, 5#8, 3#8] = .ok (List.replicate 5 5#8) ∧ (List.replicate 5 (5#8 : Byte)).length ≤ 5 ∧
    4 < (List.replicate 5 (5#8 : Byte)).length ∧ dec [5#8, 5#8] = .malformed 1 := by decide

end Sys2Proof.Tests
end

section
/-! PROOFS. The state and its invariant (10_state.md): every step keeps it, what no step changes, and
record turns against byte turns. -/

namespace Sys2Proof.Machine

/-! ### Every state that satisfies the invariant is heading for a result -/

/-- A memory that lists exactly the indices below n is a list of n bytes. -/
theorem Memory.get?_of_keys_range {m : List Host.Cell} {n : Nat}
    (h : m.map Prod.fst = List.range n) :
    ∃ out : List Byte, out.length = n ∧ ∀ j, Memory.get? m j = out[j]? := by
  refine ⟨(List.range n).map fun j => (Memory.get? m j).getD 0#8, by simp, fun j => ?_⟩
  have hsome : (Memory.get? m j).isSome = true ↔ j < n := by
    rw [Memory.get?_isSome_iff, h, List.mem_range]
  rw [List.getElem?_map]
  by_cases hj : j < n
  · rw [List.getElem?_range hj]
    obtain ⟨b, hb⟩ := Option.isSome_iff_exists.1 (hsome.2 hj)
    simp [hb]
  · have hnone : Memory.get? m j = none := by simpa using mt hsome.1 hj
    rw [hnone, List.getElem?_eq_none (by simpa using hj)]
    rfl

/-- While an operation runs, OUT holds some list of opos bytes (42_command.md R166). -/
theorem Inv.exists_holds {s : State} (hI : Inv s) (hb : s.busy = true) : ∃ out, Holds s out := by
  obtain ⟨out, hlen, hget⟩ := Memory.get?_of_keys_range (hI.out_busy hb)
  exact ⟨out, hlen.symm, hget⟩

/-- Every state that satisfies the invariant is heading for some result. -/
theorem Inv.exists_willShow {s : State} (hI : Inv s) : ∃ R, WillShow s R := by
  unfold WillShow
  cases ho : s.op with
  | none => exact ⟨_, rfl⟩
  | enc =>
    obtain ⟨out, hout⟩ := hI.exists_holds (hI.busy (by simp [ho]))
    exact ⟨_, out, hout, rfl⟩
  | dec =>
    obtain ⟨out, hout⟩ := hI.exists_holds (hI.busy (by simp [ho]))
    exact ⟨_, out, hout, rfl⟩

/-! ### Engine turns from the invariant -/

theorem engineTurn_idle {s : State} (ho : s.op = .none) : engineTurn s = .next s := by
  simp [engineTurn, ho]

/-- A turn of a running operation is a good turn towards some result (Laws/Scan.lean). -/
theorem engineTurn_good {s : State} (hI : Inv s) (ho : s.op ≠ .none) :
    ∃ t R, engineTurn s = .next t ∧ GoodTurn s R t := by
  obtain ⟨R, hR⟩ := hI.exists_willShow
  cases hop : s.op with
  | none => exact absurd hop ho
  | enc =>
    obtain ⟨t, ht, hgood⟩ := encodeTurn_good hI hop hR
    exact ⟨t, R, by simp [engineTurn, hop, ht], hgood⟩
  | dec =>
    obtain ⟨t, ht, hgood⟩ := decodeTurn_good hI hop hR
    exact ⟨t, R, by simp [engineTurn, hop, ht], hgood⟩

/-- The same for a turn that is known to have ended in `t`. -/
theorem goodTurn_of_engineTurn {s t : State} (hI : Inv s) (ho : s.op ≠ .none)
    (h : engineTurn s = .next t) : ∃ R, GoodTurn s R t := by
  obtain ⟨u, R, hu, hgood⟩ := engineTurn_good hI ho
  obtain rfl : u = t := by simpa [hu] using h
  exact ⟨R, hgood⟩

/-- The scan index never passes N, so an engine turn never faults (10_state.md R36). -/
theorem engineTurn_continues {s : State} (hI : Inv s) : ∃ t, engineTurn s = .next t := by
  by_cases ho : s.op = .none
  · exact ⟨s, engineTurn_idle ho⟩
  · obtain ⟨t, _, ht, _⟩ := engineTurn_good hI ho
    exact ⟨t, ht⟩

/-! ### What each kind of turn keeps of the invariant -/

theorem engineTurn_inv {s t : State} (hI : Inv s) (h : engineTurn s = .next t) : Inv t := by
  by_cases ho : s.op = .none
  · obtain rfl : s = t := by simpa [engineTurn_idle ho] using h
    exact hI
  · obtain ⟨R, hInv, _⟩ := goodTurn_of_engineTurn hI ho h
    exact hInv

/-- An idle block that has completed nothing, with no byte of OUT stored: the shape of every reset
state (70_reset_and_hazards.md R230, R231). -/
theorem inv_fresh {s : State} (h : InvBase s) (hbusy : s.busy = false) (hdone : s.done = false)
    (herr : s.err = .noError) (hop : s.op = .none) (hlen : s.outLen = 0#32)
    (hpos : s.errPos = 0#32) (hout : s.outBuf = []) : Inv s where
  inCap_le := h.a
  outCap_le := h.b
  busy_iff := by simp [hbusy, hop]
  busy_not_done := fun _ => hdone
  err_done := fun h => absurd herr h
  err_outLen := fun _ => hlen
  ok_errPos := fun _ _ => hpos
  fresh := fun _ _ => ⟨hlen, hpos⟩
  in_wf := h.c
  in_bound := h.d
  out_busy := by simp [hbusy]
  opos_le := by simp [hbusy]
  out_done := by simp [hdone]
  outLen_le := by simp [hdone]
  out_none := fun _ _ => hout
  inLen_le := by simp [hbusy]
  ipos_le := by simp [hbusy]
  enc_open := by simp [hop]
  dec_nonempty := by simp [hop]
  dec_boundary := by simp [hop]

theorem applyReset_inv {s : State} (hI : Inv s) : Inv (applyReset s) :=
  inv_fresh ⟨hI.inCap_le, hI.outCap_le, rfl, by simp⟩ rfl rfl rfl rfl rfl rfl rfl

theorem startEncode_inv {s : State} (hI : Inv s) (hl : s.inLen.toNat ≤ s.inCap.toNat) :
    Inv (startEncode s) :=
  inv_running (hI.base.keeps (startEncode_keeps s)) rfl rfl rfl (by simp [startEncode]) rfl
    (Nat.zero_le _) hl (Nat.zero_le _) (by simp [startEncode]) (by simp [startEncode])
    (by simp [startEncode])

/-- The DECODE start: with an empty input it completes, else it stands at a byte that the sentinel
differs from (41_decode.md R131, R132). -/
theorem startDecode_inv {s : State} (hI : Inv s) (hl : s.inLen.toNat ≤ s.inCap.toNat) :
    Inv (startDecode s) := by
  by_cases hN : s.inLen = 0#32
  · rw [startDecode_empty hN]
    exact inv_complete (hI.base.keeps ⟨⟨rfl, rfl, rfl, rfl, rfl, rfl⟩, rfl⟩) rfl (Nat.zero_le _)
  · have hbase := hI.base.keeps (startDecode_keeps s)
    rw [startDecode_nonempty hN] at hbase ⊢
    refine inv_running hbase rfl rfl rfl (by simp) rfl (Nat.zero_le _) hl (Nat.zero_le _) (by simp)
      (fun _ => hN) fun _ _ => ?_
    show (true && s.inByte 0 == sentinel (s.inByte 0)) = false
    simpa using (sentinel_ne _).symm

/-- A CMD write does nothing, completes with an error, or starts an operation, each within the
invariant (42_command.md R160). -/
theorem command_inv {s t : State} {w : Word} (hI : Inv s)
    (h : exec (decodeCommand w) s = .next t) : Inv t := by
  rcases exec_command_cases w s with e | ⟨_, c, hc, e⟩ | ⟨_, hle, e | e⟩ <;> rw [e] at h <;> cases h
  · exact hI
  · exact inv_error hI.base hc
  · exact startEncode_inv hI (by simpa [BitVec.lt_def] using hle)
  · exact startDecode_inv hI (by simpa [BitVec.lt_def] using hle)

/-- What a read changes is no part of the invariant. -/
theorem hostRead_inv {s : State} (hI : Inv s) (w : Width) (o : Word) : Inv (hostRead w o s) := by
  obtain ⟨v, d, e⟩ := hostRead_form w o s
  rw [e]
  exact { hI with }

/-- While no operation runs the host may store any IN_LEN (10_state.md R26) and any IN within
IN[0..IN_CAP) (20_memory.md R52). -/
theorem Inv.withOperands {s : State} (hI : Inv s) (hb : s.busy = false) (n : Word)
    {m : List Host.Cell} (hwf : Memory.wf m = true) (hm : ∀ c ∈ m, c.1 < s.inCap.toNat) :
    Inv { s with inLen := n, inBuf := m } := by
  have hop : s.op = .none := by simpa [hb] using hI.busy_iff
  exact { hI with
    in_wf := hwf
    in_bound := hm
    inLen_le := by simp [hb]
    ipos_le := by simp [hb]
    dec_nonempty := by simp [hop]
    dec_boundary := by simp [hop] }

theorem hostAccess_inv {s : State} (hI : Inv s) (a : Access) : Inv (hostAccess a s) := by
  rcases hostAccess_cases a s with ⟨w, o, _, e⟩ | e | ⟨hb, v, _, e⟩ | ⟨hb, i, v, hi, e⟩ <;> rw [e]
  · exact hostRead_inv hI w o
  · exact hI
  · exact hI.withOperands hb v hI.in_wf hI.in_bound
  · refine hI.withOperands hb s.inLen (Memory.wf_set hI.in_wf i v) fun c hc => ?_
    rcases Memory.mem_set hc with rfl | hc
    · exact hi
    · exact hI.in_bound c hc

/-- Settles O3, by whose turn the step is: an engine turn keeps the invariant because it follows the
bounded scan, and reset, a command and a port access each keep it. -/
theorem everyStepKeepsInvariant : Obligations.EveryStepKeepsInvariant := by
  intro s t hI h
  rcases step_cases h with ⟨_, h⟩ | ⟨rest, ⟨_, h⟩ | ⟨_, rfl⟩ | ⟨w, _, h⟩ | ⟨a, _, _, rfl⟩⟩
  · exact engineTurn_inv hI h
  · exact engineTurn_inv (hI.withInput rest) h
  · exact applyReset_inv (hI.withInput rest)
  · exact command_inv (hI.withInput rest) h
  · exact hostAccess_inv (hI.withInput rest) a

/-- A legal capacity fits a register. -/
theorem toNat_capacity (n : Fin (2 ^ 30 + 1)) : (BitVec.ofNat 32 n.val).toNat = n.val := by
  have := n.isLt
  rw [BitVec.toNat_ofNat]; omega

/-- Settles O2: a reset state is fresh, and its capacities are at most 2^30 as parameters. -/
theorem resetSatisfiesInvariant : Obligations.ResetSatisfiesInvariant := by
  have hcap : ∀ n : Fin (2 ^ 30 + 1), (BitVec.ofNat 32 n.val).toNat ≤ 2 ^ 30 := fun n => by
    rw [toNat_capacity]
    exact Nat.le_of_lt_succ n.isLt
  have hreset : ∀ p, Inv (State.resetWith p) := fun p =>
    inv_fresh ⟨hcap p.inCap, hcap p.outCap, rfl, nofun⟩ rfl rfl rfl rfl rfl rfl rfl
  exact ⟨hreset, hreset _⟩

/-- Settles O4: an engine turn from the invariant continues, and every other turn always answers. -/
theorem invariantStatesContinue : Obligations.InvariantStatesContinue := by
  intro s hI
  unfold Continues
  cases hi : s.input with
  | nil => rw [step_nil hi]; exact engineTurn_continues hI
  | cons e rest =>
    rw [step_cons hi]
    cases e with
    | engine => exact engineTurn_continues (hI.withInput rest)
    | reset => exact ⟨_, rfl⟩
    | access a =>
      rw [eventTurn_access]
      rcases commandOf_cases a with ⟨w, rfl⟩ | hn
      · exact exec_next (decodeCommand w) _
      · exact ⟨_, accessTurn_other hn _⟩

/-! ### What a port access leaves alone -/

/-- An access that is no command changes none of the STATUS fields, the operation, its two counters and
the capacities (20_memory.md R51 to R58). -/
theorem hostAccess_frame (a : Access) (s : State) :
    (hostAccess a s).busy = s.busy ∧ (hostAccess a s).done = s.done ∧
      (hostAccess a s).err = s.err ∧ (hostAccess a s).op = s.op ∧
      (hostAccess a s).ipos = s.ipos ∧ (hostAccess a s).opos = s.opos ∧
      (hostAccess a s).inCap = s.inCap ∧ (hostAccess a s).outCap = s.outCap := by
  cases a <;> simp [hostAccess]

/-- Settles O44: a running operation moves its counters only in an engine turn, which never moves them
back; the upper bounds are those of the invariant after the step. -/
theorem scanNeverGoesBack : Obligations.ScanNeverGoesBack := by
  intro s t hI ho h hto
  have hIt := everyStepKeepsInvariant s t hI h
  have htb := hIt.busy hto
  have hgood : ∀ u : State, Inv u → u.op ≠ .none → engineTurn u = .next t →
      u.ipos.toNat ≤ t.ipos.toNat ∧ u.opos.toNat ≤ t.opos.toNat := by
    intro u hIu hou hu
    obtain ⟨R, _, _, _, _, hopos, hipos⟩ := goodTurn_of_engineTurn hIu hou hu
    rw [if_neg hto] at hopos hipos
    exact ⟨hipos, hopos⟩
  have hmono : s.ipos.toNat ≤ t.ipos.toNat ∧ s.opos.toNat ≤ t.opos.toNat := by
    rcases step_cases h with ⟨_, h⟩ | ⟨rest, ⟨_, h⟩ | ⟨_, rfl⟩ | ⟨w, _, h⟩ | ⟨a, _, _, rfl⟩⟩
    · exact hgood s hI ho h
    · exact hgood (s.withInput rest) (hI.withInput rest) ho h
    · exact absurd rfl hto
    · rw [exec_busy (s := s.withInput rest) (hI.busy ho)] at h
      cases h
      exact ⟨Nat.le_refl _, Nat.le_refl _⟩
    · obtain ⟨_, _, _, _, hipos, hopos, _⟩ := hostAccess_frame a (s.withInput rest)
      rw [hipos, hopos]
      exact ⟨Nat.le_refl _, Nat.le_refl _⟩
  exact ⟨hmono.1, hIt.ipos_le htb, hmono.2, hIt.opos_le htb⟩

/-! ### Writes and reads of the register window -/

/-- A write to a register other than CMD and IN_LEN is ignored, at every width (10_state.md R21). -/
theorem step_write_ignored {s : State} {w : Width} {a d : Word} {rest : List Event}
    (h : s.input = .access (.write w a d) :: rest) (hreg : a.toNat < 0x1000)
    (hcmd : a.toNat ≠ 0x4) (hlen : a.toNat ≠ 0xC) : step s = .next (s.withInput rest) := by
  have hne : a ≠ 0x004#32 := fun e => hcmd (by rw [e]; rfl)
  rw [step_write h (.inr hne), hostWrite_register hreg, writeRegister_other hlen, ite_self]

/-- A 32-bit read at a multiple of 4 is a read of that register (20_memory.md R51). -/
theorem readPort_register {s : State} {a : Word} (hreg : a.toNat < 0x1000)
    (halign : a.toNat % 4 = 0) : readPort s .w32 a = readRegister s a.toNat := by
  simp [readPort, region_register hreg, registerAccess, halign]

/-- A step that takes a read which returns a value. -/
theorem step_read_word {s : State} {w : Width} {a v : Word} {rest : List Event}
    (h : s.input = .access (.read w a) :: rest) (hv : readPort s w a = .word v) :
    step s = .next { s.withInput rest with responses := v :: s.responses } := by
  have hv' : readPort (s.withInput rest) w a = .word v := hv
  have hstep : step s = .next (hostRead w a (s.withInput rest)) := by
    rw [step_cons h, eventTurn_access, accessTurn_other rfl]; rfl
  rw [hstep, hostRead, hv']
  rfl

/-- Settles O8: a reserved offset is in the register window, where only CMD and IN_LEN take writes and
every register from 0x020 on reads 0. -/
theorem reservedOffsetsReadZero : Obligations.ReservedOffsetsReadZero := by
  intro s a hlo hhi halign
  have hread : readPort s .w32 a = .word 0#32 := by
    rw [readPort_register (by omega) halign, readRegister_reserved hlo]
  exact ⟨hread, fun w d rest h => step_write_ignored h (by omega) (by omega) (by omega),
    fun rest h => step_read_word h hread⟩

/-! ### What a step keeps of the capacities and of IN_LEN -/

/-- A step that is neither a reset nor a port access changes no operand and no constant (10_state.md
R26, R28, R29, R32). -/
theorem step_sameInput_cases {s t : State} (h : step s = .next t) :
    SameInput s t ∨ (∃ rest, s.input = .reset :: rest ∧ t = applyReset (s.withInput rest)) ∨
      (∃ a rest, s.input = .access a :: rest ∧ t = hostAccess a (s.withInput rest)) := by
  rcases step_cases h with ⟨_, h⟩ | ⟨rest, ⟨_, h⟩ | hreset | ⟨w, _, h⟩ | ⟨a, _, haccess⟩⟩
  · exact .inl (engine_keeps h).same
  · exact .inl (engine_keeps h).same
  · exact .inr (.inl ⟨rest, hreset⟩)
  · exact .inl (command_keeps h).same
  · exact .inr (.inr ⟨a, rest, haccess⟩)

/-- No step changes a capacity (10_state.md R28, R29). -/
theorem step_caps {s t : State} (h : step s = .next t) :
    t.inCap = s.inCap ∧ t.outCap = s.outCap := by
  rcases step_sameInput_cases h with ⟨hin, hout, _⟩ | ⟨rest, _, rfl⟩ | ⟨a, rest, _, rfl⟩
  · exact ⟨hin, hout⟩
  · exact ⟨rfl, rfl⟩
  · obtain ⟨_, _, _, _, _, _, hin, hout⟩ := hostAccess_frame a (s.withInput rest)
    exact ⟨hin, hout⟩

/-- Settles O7: the three offsets are registers that take no write, and no step changes a capacity. -/
theorem constantRegistersNeverChange : Obligations.ConstantRegistersNeverChange := by
  refine ⟨fun s => ⟨rfl, rfl, rfl⟩, ?_, fun s t h => step_caps h,
    fun p => ⟨toNat_capacity p.inCap, toNat_capacity p.outCap⟩⟩
  rintro s w a d rest (rfl | rfl | rfl) h <;>
    exact step_write_ignored h (by decide) (by decide) (by decide)

/-- An aligned 32-bit write to IN_LEN stores its data while the block is idle and is ignored while it
is BUSY (10_state.md R26). -/
theorem step_write_inLen {s : State} {v : Word} {rest : List Event}
    (h : s.input = .access (.write .w32 0x00C#32 v) :: rest) :
    step s = .next (if s.busy then s.withInput rest else { s.withInput rest with inLen := v }) := by
  rw [step_write h (.inr (by decide))]
  rfl

/-- IN_LEN changes only by reset and by a write to it while idle (10_state.md R26). -/
theorem inLen_change {s t : State} (h : step s = .next t) (hne : t.inLen ≠ s.inLen) :
    (∃ rest, s.input = .reset :: rest) ∨
      (s.busy = false ∧ ∃ rest, s.input = .access (.write .w32 0x00C#32 t.inLen) :: rest) := by
  rcases step_sameInput_cases h with ⟨_, _, hlen, _⟩ | ⟨rest, hi, _⟩ | ⟨a, rest, hi, rfl⟩
  · exact absurd hlen hne
  · exact .inl ⟨rest, hi⟩
  · rcases hostAccess_cases a (s.withInput rest) with
      ⟨w, o, _, e⟩ | e | ⟨hb, v, rfl, e⟩ | ⟨_, i, v, _, e⟩ <;> rw [e] at hne ⊢
    · exact absurd (hostRead_inLen ..) hne
    · exact absurd rfl hne
    · exact .inr ⟨hb, rest, hi⟩
    · exact absurd rfl hne

/-- Settles O10: an aligned write to IN_LEN stores unless BUSY, and every other step but reset keeps it. -/
theorem inLenHoldsWhatIsWritten : Obligations.InLenHoldsWhatIsWritten := by
  refine ⟨fun s v rest h => ⟨fun hb => ⟨?_, rfl⟩, fun hb => ?_⟩, fun s t => inLen_change,
    fun p => rfl⟩
  · rw [step_write_inLen h, if_neg (by simp [hb])]
  · rw [step_write_inLen h, if_pos hb]

/-! ### STATUS -/

/-- STATUS is 0 when all its fields are (10_state.md R24). -/
theorem statusWord_eq_zero {s : State} (hb : s.busy = false) (hd : s.done = false)
    (he : s.err = .noError) : s.statusWord = 0#32 := by
  simp [State.statusWord, hb, hd, he, ErrCode.code]

/-- An idle block with STATUS 0 keeps STATUS 0 until a CMD write that is not a NOP (10_state.md R25). -/
theorem status_zero_kept {s t : State} (hop : s.op = .none) (hs : s.statusWord = 0#32)
    (h : step s = .next t)
    (hnop : ∀ w rest, s.input = .access (.write .w32 0x004#32 w) :: rest →
      w.extractLsb' 0 2 = 0#2) : t.op = .none ∧ t.statusWord = 0#32 := by
  rcases step_cases h with ⟨_, h⟩ | ⟨rest, ⟨_, h⟩ | ⟨_, rfl⟩ | ⟨w, hi, h⟩ | ⟨a, _, _, rfl⟩⟩
  · rw [engineTurn_idle hop] at h
    cases h
    exact ⟨hop, hs⟩
  · rw [engineTurn_idle (s := s.withInput rest) hop] at h
    cases h
    exact ⟨hop, hs⟩
  · exact ⟨rfl, statusWord_eq_zero rfl rfl rfl⟩
  · obtain ⟨g, hg⟩ := decodeCommand_nop (hnop w rest hi)
    rw [hg, exec_nop] at h
    cases h
    exact ⟨hop, hs⟩
  · obtain ⟨hbusy, hdone, herr, hop', _⟩ := hostAccess_frame a (s.withInput rest)
    exact ⟨hop'.trans hop, (statusWord_congr hbusy hdone herr).trans hs⟩

/-- A completed command shows as `0x2 | (code << 2)` (10_state.md R25). -/
theorem statusWord_completed {s : State} (hb : s.busy = false) (hd : s.done = true) :
    s.statusWord = BitVec.ofNat 32 (2 + 4 * s.err.code.toNat) := by
  rw [← statusWord_errorCompletion s.err 0#32 s]
  exact statusWord_congr hb hd rfl

/-- Settles O6, from the fields of the STATUS word and the invariant's clauses on BUSY, DONE and ERR. -/
theorem statusInvariantsHold : Obligations.StatusInvariantsHold := by
  refine ⟨status_fields, fun s hI => ?_, fun s t hop hs h => status_zero_kept hop hs h,
    fun p => ⟨statusWord_eq_zero rfl rfl rfl, rfl⟩, fun s => statusWord_completed⟩
  obtain ⟨hbusy, hdone, herr, _⟩ := status_fields s
  rw [hbusy, hdone, herr]
  refine ⟨fun ⟨hb, hd⟩ => ?_, fun hc => hI.err_done fun he => hc (by rw [he]; rfl)⟩
  simp [hI.busy_not_done hb] at hd

/-! ### Record turns and byte turns of a DECODE -/

/-- Three bytes or more before N: the decoder fetches three (20_memory.md R56). -/
theorem fetchBytes_three {s : State} (h : s.ipos.toNat + 3 ≤ s.inLen.toNat) :
    s.fetchBytes = [s.currentByte, s.inByte (s.ipos.toNat + 1), s.inByte (s.ipos.toNat + 2)] := by
  unfold State.fetchBytes
  rw [show min 3 (s.inLen.toNat - s.ipos.toNat) = 3 by omega]; rfl

/-- Two equal bytes with a third after them begin a run record (30_encoding.md R70). -/
theorem decode_fetch_run {s : State} (h : s.ipos.toNat + 3 ≤ s.inLen.toNat)
    (heq : s.inByte (s.ipos.toNat + 1) = s.currentByte) :
    decode (.stream s.fetchBytes) =
      .ok (.run s.currentByte (s.inByte (s.ipos.toNat + 2)), []) := by
  simp [decode, fetchBytes_three h, decodeRecord, heq]

/-- Two equal bytes at the end of the input are a truncated marker (60_exceptions.md R201). -/
theorem decode_fetch_truncated {s : State} (h : s.ipos.toNat + 2 = s.inLen.toNat)
    (heq : s.inByte (s.ipos.toNat + 1) = s.currentByte) :
    decode (.stream s.fetchBytes) = .error (.truncatedMarker s.currentByte) := by
  have heq' : s.inByte (s.ipos.toNat + 1) = s.inByte s.ipos.toNat := heq
  simp [decode, fetchBytes_two h, decodeRecord, heq', State.currentByte]

/-- A byte that no equal byte follows is a literal record (30_encoding.md R70). -/
theorem decode_fetch_lit {s : State} (hlt : s.ipos.toNat < s.inLen.toNat)
    (hne : s.ipos.toNat + 1 < s.inLen.toNat → s.inByte (s.ipos.toNat + 1) ≠ s.currentByte) :
    ∃ r, decode (.stream s.fetchBytes) = .ok (.lit s.currentByte, r) := by
  have hbytes : s.fetchBytes = (s.currentByte :: s.inputSeq.drop (s.ipos.toNat + 1)).take 3 := by
    rw [fetchBytes_eq, drop_cons hlt]; rfl
  rw [hbytes]
  by_cases h2 : s.ipos.toNat + 1 < s.inLen.toNat
  · rw [drop_cons h2]
    simp [decode, decodeRecord, (hne h2).symm]
  · rw [drop_nil (by omega)]
    simp [decode, decodeRecord]

theorem afterLiteral_ipos {s : State} (c : Byte) (h : s.ipos.toNat < s.inLen.toNat) :
    (s.afterLiteral c).ipos.toNat = s.ipos.toNat + 1 :=
  ipos_add (k := 1) h

theorem afterLiteral_currentByte {s : State} (c : Byte) (h : s.ipos.toNat < s.inLen.toNat) :
    (s.afterLiteral c).currentByte = s.inByte (s.ipos.toNat + 1) := by
  rw [State.currentByte, afterLiteral_ipos c h, inByte_congr (afterLiteral_keeps s c).same]

/-- With the marker and its length byte below N, the marker step read from IN after the literal is the
marker step of the run record (41_decode.md R135). -/
theorem literalStep_bind_markerTurn {s : State} (hop : s.opos.toNat ≤ s.outCap.toNat)
    (h : s.ipos.toNat + 3 ≤ s.inLen.toNat)
    (heq : s.inByte (s.ipos.toNat + 1) = s.currentByte) :
    (literalStep s.currentByte s).bind markerTurn =
      (literalStep s.currentByte s).bind
        (markerStep s.currentByte (s.inByte (s.ipos.toNat + 2))) := by
  rw [literalStep_spec _ hop]
  split
  · have hip := afterLiteral_ipos s.currentByte (s := s) (by omega)
    have hlen : (s.afterLiteral s.currentByte).inLen = s.inLen := rfl
    show markerTurn (s.afterLiteral s.currentByte) = markerStep _ _ (s.afterLiteral s.currentByte)
    rw [markerTurn, hip, hlen, if_neg (by omega), afterLiteral_currentByte _ (by omega), heq,
      inByte_congr (afterLiteral_keeps s s.currentByte).same]
  · rfl

/-- A turn of a running DECODE whose scan index is below N, by the byte after the one at the index: an
equal one is the marker of the same record, so the turn is the literal step and then the marker step;
else it is the literal step alone (41_decode.md R133 to R135). -/
theorem decodeTurn_lt {s : State} (hI : Inv s) (ho : s.op = .dec)
    (hlt : s.ipos.toNat < s.inLen.toNat) :
    decodeTurn s = .next (settle s
      (if s.ipos.toNat + 1 < s.inLen.toNat ∧ s.inByte (s.ipos.toNat + 1) = s.currentByte then
        (literalStep s.currentByte s).bind markerTurn
      else literalStep s.currentByte s)) := by
  have hmark := hI.dec_boundary ho hlt
  have hop := hI.opos_le (hI.busy (by simp [ho]))
  unfold decodeTurn
  rw [if_pos hlt, if_neg (by simp [hmark])]
  by_cases hpair : s.ipos.toNat + 1 < s.inLen.toNat ∧
      s.inByte (s.ipos.toNat + 1) = s.currentByte
  · rw [if_pos hpair]
    obtain ⟨h2, heq⟩ := hpair
    by_cases h3 : s.ipos.toNat + 3 ≤ s.inLen.toNat
    · rw [decode_fetch_run h3 heq, literalStep_bind_markerTurn hop h3 heq]
      rfl
    · rw [decode_fetch_truncated (by omega) heq]
      rfl
  · rw [if_neg hpair]
    obtain ⟨r, hr⟩ := decode_fetch_lit hlt fun h2 heq => hpair ⟨h2, heq⟩
    rw [hr]
    rfl

/-- At N it completes (41_decode.md R136). -/
theorem decodeTurn_end {s : State} (hI : Inv s) (ho : s.op = .dec)
    (hge : ¬ s.ipos.toNat < s.inLen.toNat) : decodeTurn s = .next (completeOk s) := by
  have hle := hI.ipos_le (hI.busy (by simp [ho]))
  have hN : s.ipos = s.inLen := BitVec.eq_of_toNat_eq (by omega)
  rw [decodeTurn, if_neg hge, if_pos hN]

theorem byteDecodeTurn_end {s : State} (ho : s.op = .dec)
    (hge : ¬ s.ipos.toNat < s.inLen.toNat) : byteDecodeTurn s = completeOk s := by
  simp [byteDecodeTurn, ho, hge]

@[simp] theorem turnsLeft_completeOk (s : State) : turnsLeft (completeOk s) = 0 := rfl
@[simp] theorem turnsLeft_errorCompletion (c : ErrCode) (p : Word) (s : State) :
    turnsLeft (errorCompletion c p s) = 0 := rfl

theorem turnsLeft_running {s : State} (ho : s.op ≠ .none) :
    turnsLeft s = s.inLen.toNat - s.ipos.toNat + 1 := if_neg ho

/-- Every byte turn of a running DECODE brings its end nearer (41_decode.md R134 to R136). -/
theorem byteDecodeTurn_turnsLeft {s : State} (ho : s.op = .dec)
    (hop : s.opos.toNat ≤ s.outCap.toNat) : turnsLeft (byteDecodeTurn s) < turnsLeft s := by
  have hrun : s.op ≠ .none := by simp [ho]
  rw [turnsLeft_running hrun]
  by_cases hlt : s.ipos.toNat < s.inLen.toNat
  · cases hm : s.isMarker s.currentByte
    · rw [byteDecodeTurn_literal ho hlt hm, literalStep_spec _ hop]
      split
      · have hlen : (s.afterLiteral s.currentByte).inLen = s.inLen := rfl
        rw [settle_ok, turnsLeft_running (s := s.afterLiteral _) hrun, afterLiteral_ipos _ hlt, hlen]
        omega
      · simp
    · rw [byteDecodeTurn_marker ho hlt hm, markerTurn_spec hop]
      split
      · simp
      · split
        · have hip : (s.ipos + 2#32).toNat = s.ipos.toNat + 2 := ipos_add (k := 2) (by omega)
          rw [settle_ok, turnsLeft_running (s := s.afterMarker _ _) hrun]
          show s.inLen.toNat - (s.ipos + 2#32).toNat + 1 < _
          omega
        · simp
  · simp [byteDecodeTurn_end ho hlt]

/-- An error raised after a literal step ends in the same state as one raised before it: all output is
discarded (60_exceptions.md R205). -/
theorem settle_afterLiteral (s : State) (c : Byte) (r : Except Raise State) :
    settle (s.afterLiteral c) r = settle s r := by
  cases r <;> rfl

/-- After the literal step of a byte, an equal byte is a marker (41_decode.md R133, R134). -/
theorem byteDecodeTurn_afterLiteral {s : State} (ho : s.op = .dec)
    (h2 : s.ipos.toNat + 1 < s.inLen.toNat)
    (heq : s.inByte (s.ipos.toNat + 1) = s.currentByte) :
    byteDecodeTurn (s.afterLiteral s.currentByte) =
      settle s (markerTurn (s.afterLiteral s.currentByte)) := by
  have hlt : s.ipos.toNat < s.inLen.toNat := by omega
  have hmark : (s.afterLiteral s.currentByte).isMarker (s.afterLiteral s.currentByte).currentByte
      = true := by
    rw [afterLiteral_currentByte _ hlt, heq]
    simp [State.isMarker, State.afterLiteral]
  have hlt' : (s.afterLiteral s.currentByte).ipos.toNat < s.inLen.toNat := by
    rw [afterLiteral_ipos _ hlt]; exact h2
  rw [byteDecodeTurn_marker (s := s.afterLiteral s.currentByte) ho hlt' hmark, settle_afterLiteral]

/-- A record turn is one byte turn, or two with the DECODE still running between them (10_state.md R39;
log 1). -/
theorem decodeTurn_eq_byteDecodeTurn {s : State} (hI : Inv s) (ho : s.op = .dec) :
    decodeTurn s = .next (byteDecodeTurn s) ∨
      decodeTurn s = .next (byteDecodeTurn (byteDecodeTurn s)) ∧ (byteDecodeTurn s).op = .dec ∧
        (byteDecodeTurn s).opos.toNat ≤ (byteDecodeTurn s).outCap.toNat := by
  have hop := hI.opos_le (hI.busy (by simp [ho]))
  by_cases hlt : s.ipos.toNat < s.inLen.toNat
  · rw [decodeTurn_lt hI ho hlt, byteDecodeTurn_literal ho hlt (hI.dec_boundary ho hlt)]
    split
    next hpair =>
      obtain ⟨h2, heq⟩ := hpair
      rw [literalStep_spec _ hop]
      split
      next hfit =>
        refine .inr ⟨?_, ho, ?_⟩
        · rw [settle_ok, byteDecodeTurn_afterLiteral ho h2 heq]
          rfl
        · rw [settle_ok, afterLiteral_opos hfit]
          exact hfit
      next => exact .inl rfl
    next => exact .inl rfl
  · rw [decodeTurn_end hI ho hlt, byteDecodeTurn_end ho hlt]
    exact .inl rfl

/-- The same with the turns counted: the byte turns taken are paid for by those left. -/
theorem decodeTurn_eq_iterate {s : State} (hI : Inv s) (ho : s.op = .dec) :
    ∃ k t, decodeTurn s = .next t ∧ byteDecodeTurn^[k + 1] s = t ∧
      turnsLeft t + (k + 1) ≤ turnsLeft s := by
  have hfirst := byteDecodeTurn_turnsLeft ho (hI.opos_le (hI.busy (by simp [ho])))
  rcases decodeTurn_eq_byteDecodeTurn hI ho with hone | ⟨htwo, ho', hop'⟩
  · exact ⟨0, _, hone, rfl, hfirst⟩
  · have hsecond := byteDecodeTurn_turnsLeft ho' hop'
    exact ⟨1, _, htwo, rfl, by omega⟩

theorem runSteps_idle {s : State} (ho : s.op = .none) (hi : s.input = []) (n : Nat) :
    runSteps n s = .next s := by
  induction n with
  | zero => rfl
  | succ n ih => rw [runSteps_succ n ((step_nil hi).trans (engineTurn_idle ho)), ih]

/-- A turn of a running DECODE leaves one running or nothing running. -/
theorem decodeTurn_op {s t : State} (ho : s.op = .dec) (h : engineTurn s = .next t) :
    t.op ≠ .enc := by
  rcases engineTurn_cases h with ⟨_, _, _, _, hop, _⟩ | ⟨u, _, rfl⟩ | ⟨c, p, _, rfl⟩
  · simp [hop, ho]
  · simp
  · simp

/-- From a state with no ENCODE running and no event to come, enough record turns and enough byte turns
end in the same state. -/
theorem recordTurns_eq_byteTurns {s : State} (hI : Inv s) (henc : s.op ≠ .enc)
    (hi : s.input = []) :
    ∃ u, ∀ n, turnsLeft s ≤ n → runSteps n s = .next u ∧ byteDecodeTurn^[n] s = u := by
  induction hk : turnsLeft s using Nat.strong_induction_on generalizing s with
  | _ k ih =>
    cases ho : s.op with
    | enc => exact absurd ho henc
    | none =>
      exact ⟨s, fun n _ => ⟨runSteps_idle ho hi n,
        Function.iterate_fixed (byteDecodeTurn_other (by simp [ho])) n⟩⟩
    | dec =>
      obtain ⟨j, t, ht, hbytes, hleft⟩ := decodeTurn_eq_iterate hI ho
      have hengine : engineTurn s = .next t := by rw [engineTurn, ho, ← ht]
      have hti : t.input = [] := (engine_keeps hengine).input.trans hi
      obtain ⟨u, hu⟩ := ih (turnsLeft t) (by omega) (engineTurn_inv hI hengine)
        (decodeTurn_op ho hengine) hti rfl
      refine ⟨u, fun n hn => ?_⟩
      obtain ⟨m, rfl⟩ : ∃ m, n = m + (j + 1) := ⟨n - (j + 1), by omega⟩
      constructor
      · rw [← Nat.add_assoc, runSteps_succ _ ((step_nil hi).trans hengine)]
        exact (hu (m + j) (by omega)).1
      · rw [Function.iterate_add_apply, hbytes]
        exact (hu m (by omega)).2

/-- Settles O50: every record turn is one or two byte turns, and after N + 1 turns of either kind the
operation has completed and no turn does anything more. -/
theorem recordTurnsAgreeWithByteTurns : Obligations.RecordTurnsAgreeWithByteTurns := by
  intro s hI ho hi
  have hrun : s.op ≠ .none := by simp [ho]
  obtain ⟨u, hu⟩ := recordTurns_eq_byteTurns hI (by simp [ho]) hi
  obtain ⟨hrecords, hbytes⟩ := hu (s.inLen.toNat + 1) (by rw [turnsLeft_running hrun]; omega)
  rw [hrecords, hbytes]

end Sys2Proof.Machine
end

section
/-! PROOFS. The host port (20_memory.md): what each access of each window does, that a read has no side
effect, that a completed result stays, and that the engine leaves the input alone. -/

namespace Sys2Proof.Machine

/-! ### Accesses by the window they fall in -/

/-- An offset outside the three windows (20_memory.md R50). -/
theorem region_unmapped {s : State} {a : Word} (hreg : 0x1000 ≤ a.toNat)
    (hin : ¬(0x40000000 ≤ a.toNat ∧ a.toNat < 0x40000000 + s.inCap.toNat))
    (hout : ¬(0x80000000 ≤ a.toNat ∧ a.toNat < 0x80000000 + s.outCap.toNat)) :
    s.region a = .unmapped :=
  (if_neg (Nat.not_lt.2 hreg)).trans ((if_neg hin).trans (if_neg hout))

theorem readPort_in {s : State} {a : Word} {i : Nat} (h : s.region a = .inByte i) (w : Width) :
    readPort s w a = if w = .w8 then .word ((s.inByte i).setWidth 32) else .any := by
  simp [readPort, h]

theorem readPort_out {s : State} {a : Word} {j : Nat} (h : s.region a = .outByte j) (w : Width) :
    readPort s w a = if w = .w8 then readOut s j else .any := by
  simp [readPort, h]

theorem readPort_unmapped {s : State} {a : Word} (h : s.region a = .unmapped) (w : Width) :
    readPort s w a = .word 0#32 := by
  simp [readPort, h]

/-- An access of the register window that is no defined register access reads any value (20_memory.md
R51). -/
theorem readPort_undefined {s : State} {w : Width} {a : Word} (hreg : a.toNat < 0x1000)
    (hundef : registerAccess w a.toNat = false) : readPort s w a = .any := by
  simp [readPort, region_register hreg, hundef]

/-- The CMD register is in the register window, so a write that falls elsewhere is no command. -/
theorem step_write_of_region {s : State} {w : Width} {a d : Word} {rest : List Event}
    (h : s.input = .access (.write w a d) :: rest) (hr : s.region a ≠ .register 0x4) :
    step s = .next (hostWrite w a d (s.withInput rest)) :=
  step_write h (.inr fun e => hr (by rw [e]; rfl))

/-- A write to the IN window stores one byte while the block is idle, and is ignored otherwise
(20_memory.md R52). -/
theorem step_write_in {s : State} {w : Width} {a d : Word} {rest : List Event} {i : Nat}
    (h : s.input = .access (.write w a d) :: rest) (hr : s.region a = .inByte i) :
    step s = .next (if w = .w8 ∧ s.busy = false then
      { s.withInput rest with inBuf := Memory.set s.inBuf i (d.setWidth 8) }
      else s.withInput rest) := by
  have hr' : (s.withInput rest).region a = .inByte i := hr
  rw [step_write_of_region h (by simp [hr])]
  simp only [hostWrite, hr']
  rfl

/-- A write to the OUT window is ignored (20_memory.md R53). -/
theorem step_write_out {s : State} {w : Width} {a d : Word} {rest : List Event} {j : Nat}
    (h : s.input = .access (.write w a d) :: rest) (hr : s.region a = .outByte j) :
    step s = .next (s.withInput rest) := by
  have hr' : (s.withInput rest).region a = .outByte j := hr
  rw [step_write_of_region h (by simp [hr])]
  simp [hostWrite, hr']

/-- A write to an unmapped offset is ignored (20_memory.md R54). -/
theorem step_write_unmapped {s : State} {w : Width} {a d : Word} {rest : List Event}
    (h : s.input = .access (.write w a d) :: rest) (hr : s.region a = .unmapped) :
    step s = .next (s.withInput rest) := by
  have hr' : (s.withInput rest).region a = .unmapped := hr
  rw [step_write_of_region h (by simp [hr])]
  simp [hostWrite, hr']

/-- A write to the register window that is no defined register access is ignored, and is no command
(20_memory.md R51). -/
theorem step_write_undefined {s : State} {w : Width} {a d : Word} {rest : List Event}
    (h : s.input = .access (.write w a d) :: rest) (hreg : a.toNat < 0x1000)
    (hundef : registerAccess w a.toNat = false) : step s = .next (s.withInput rest) := by
  have hcmd : w ≠ .w32 ∨ a ≠ 0x004#32 := by
    by_contra hc
    simp only [not_or, not_not] at hc
    obtain ⟨rfl, rfl⟩ := hc
    exact absurd hundef (by decide)
  rw [step_write h hcmd, hostWrite_register hreg, hundef, if_neg Bool.false_ne_true]

/-! ### The register window -/

/-- Settles O9: CMD and IN_LEN are the only registers that take a write, and an access of another width
or alignment is no defined register access. -/
theorem registerWindowAccesses : Obligations.RegisterWindowAccesses := by
  refine ⟨fun s => ⟨rfl, rfl, rfl, rfl, rfl, rfl, rfl, rfl, fun a hlo hhi halign => ?_⟩,
    fun s a d rest hhi halign h => ⟨?_, ?_, fun hcmd hlen => ?_⟩,
    fun s w a d rest hhi hkind => ?_⟩
  · rw [readPort_register (by omega) halign, readRegister_reserved hlo]
  · rintro rfl
    rw [step_cons h, eventTurn_access, accessTurn_command]
  · rintro rfl hb
    rw [step_write_inLen h, if_neg (by simp [hb])]
  · exact step_write_ignored h (by omega) (fun e => hcmd (BitVec.eq_of_toNat_eq e))
      fun e => hlen (BitVec.eq_of_toNat_eq e)
  · have hreg : a.toNat < 0x1000 := by omega
    have hundef : registerAccess w a.toNat = false := by
      simpa [registerAccess, imp_iff_not_or] using hkind
    exact ⟨readPort_undefined hreg hundef, fun h => step_write_undefined h hreg hundef⟩

/-! ### The IN window -/

/-- IN after the host has stored one byte (10_state.md R40, 20_memory.md R52). -/
theorem inByte_set {s t : State} {i : Nat} {b : Byte} (hbuf : t.inBuf = Memory.set s.inBuf i b)
    (hresets : t.resets = s.resets) (k : Nat) :
    t.inByte k = if k = i then b else s.inByte k := by
  rw [State.inByte, hbuf, hresets, Memory.get?_set]
  split <;> rfl

/-- Settles O11: the access falls on byte i of IN, where only a byte write while idle stores. -/
theorem inWindowAccesses : Obligations.InWindowAccesses := by
  intro s i hcaps hi
  have hr := region_in hcaps hi
  refine ⟨by simp [readPort_in hr], by simp [readPort_in hr], by simp [readPort_in hr],
    fun w d rest h => ⟨?_, fun hign => ?_⟩⟩
  · rintro rfl hb
    have hset := inByte_set (s := s) (i := i) (b := d.setWidth 8)
      (t := { s.withInput rest with inBuf := Memory.set s.inBuf i (d.setWidth 8) }) rfl rfl
    refine ⟨_, by rw [step_write_in h hr, if_pos ⟨rfl, hb⟩], ?_, fun k hk => ?_, rfl⟩
    · rw [hset, if_pos rfl]
    · rw [hset, if_neg hk]
  · rw [step_write_in h hr, if_neg]
    rintro ⟨rfl, hb⟩
    simp [hb] at hign

/-! ### The OUT window -/

/-- A readable byte of OUT reads as what is stored there (20_memory.md R53). -/
theorem readOut_stored {s : State} {j : Nat} {b : Byte} (hread : s.outReadable = true)
    (hj : j < s.outLen.toNat) (hb : Memory.get? s.outBuf j = some b) :
    readOut s j = .word (b.setWidth 32) := by
  simp [readOut, hread, hj, hb]

/-- No byte at or above OUT_LEN is readable (20_memory.md R53). -/
theorem readOut_above {s : State} {j : Nat} (hj : s.outLen.toNat ≤ j) : readOut s j = .any := by
  simp [readOut, Nat.not_lt.2 hj]

/-- After a success every byte below OUT_LEN is stored (42_command.md R167). -/
theorem Inv.exists_out_byte {s : State} (hI : Inv s) (hd : s.done = true) (he : s.err = .noError)
    {j : Nat} (hj : j < s.outLen.toNat) : ∃ b, Memory.get? s.outBuf j = some b := by
  obtain ⟨out, hlen, hget⟩ := Memory.get?_of_keys_range (hI.out_done hd he)
  exact ⟨out[j], by rw [hget, List.getElem?_eq_getElem]⟩

/-- Settles O12: below OUT_LEN after a success the byte is stored by the invariant; otherwise OUT is not
readable or the index is past its end. -/
theorem outWindowAccesses : Obligations.OutWindowAccesses := by
  intro s j hI hj
  have hr := region_out ⟨hI.inCap_le, hI.outCap_le⟩ hj
  refine ⟨fun hb hd he hlen => ?_, fun hany => ?_, by simp [readPort_out hr],
    by simp [readPort_out hr], fun w d rest h => step_write_out h hr⟩
  · obtain ⟨b, hget⟩ := hI.exists_out_byte hd he hlen
    have hread : s.outReadable = true := by simp [State.outReadable, hb, hd, he]
    exact ⟨b, hget, by rw [readPort_out hr, if_pos rfl, readOut_stored hread hlen hget]⟩
  · rw [readPort_out hr, if_pos rfl]
    rcases hany with hb | hd | he | hlen
    · exact readOut_any (by simp [State.outReadable, hb]) j
    · exact readOut_any (by simp [State.outReadable, hd]) j
    · exact readOut_any (by simp [State.outReadable, he]) j
    · exact readOut_above hlen

/-! ### Unmapped offsets -/

/-- Settles O13: the offset's first byte is unmapped, where a read is 0 and a write is ignored. -/
theorem unmappedOffsetsReadZero : Obligations.UnmappedOffsetsReadZero := by
  intro s a hreg hin hout w
  have hr := region_unmapped hreg hin hout
  have hread := readPort_unmapped hr w
  exact ⟨hread, fun rest h => step_read_word h hread, fun d rest h => step_write_unmapped h hr⟩

/-! ### Reads have no side effect -/

/-- What a read adds to the responses, and whether it draws: a value of the rules without a draw, or the
next free value (20_memory.md R58; log 3). -/
theorem hostRead_response (w : Width) (a : Word) (s : State) : ∃ v d,
    hostRead w a s = { s with responses := v :: s.responses, draws := d } ∧
      ∀ u, readPort s w a = .word u → v = u ∧ d = s.draws := by
  unfold hostRead
  cases readPort s w a with
  | word v => exact ⟨v, s.draws, rfl, by simp⟩
  | any => exact ⟨_, _, rfl, by simp⟩

/-- A write to the port that is no command changes nothing but IN_LEN and IN (20_memory.md R58). -/
theorem hostWrite_form (w : Width) (a d : Word) (s : State) : ∃ n m,
    hostWrite w a d s = { s with inLen := n, inBuf := m } := by
  rcases hostAccess_cases (.write w a d) s with ⟨_, _, h, _⟩ | e | ⟨_, v, _, e⟩ | ⟨_, i, v, _, e⟩
  · cases h
  · exact ⟨s.inLen, s.inBuf, e⟩
  · exact ⟨v, s.inBuf, e⟩
  · exact ⟨s.inLen, Memory.set s.inBuf i v, e⟩

/-- While BUSY a read depends on the STATUS fields, IN and IN_LEN, and the constants only (20_memory.md
R51 to R53). -/
theorem readPort_congr_busy {s t : State} (hs : s.busy = true) (hsame : SameInput s t)
    (hbusy : t.busy = s.busy) (hdone : t.done = s.done) (herr : t.err = s.err)
    (w : Width) (a : Word) : readPort t w a = readPort s w a := by
  have hin := inByte_congr hsame
  obtain ⟨hic, hoc, hlen, _⟩ := hsame
  have hregion : t.region a = s.region a := by simp [State.region, hic, hoc]
  have hreg : ∀ n, readRegister t n = readRegister s n := fun n => by
    simp [readRegister, statusWord_congr hbusy hdone herr, hlen, hic, hoc, hbusy, hs]
  have hout : ∀ j, readOut t j = readOut s j := fun j => by
    rw [readOut_any (s := s) (by simp [State.outReadable, hs]),
      readOut_any (s := t) (by simp [State.outReadable, hbusy, hs])]
  simp [readPort, hregion, hreg, hin, hout]

/-- An engine turn that completes nothing changes no read (20_memory.md R58). -/
theorem readPort_engineTurn {s t : State} (hI : Inv s) (h : engineTurn s = .next t)
    (hop : t.op = s.op) (w : Width) (a : Word) : readPort t w a = readPort s w a := by
  by_cases ho : s.op = .none
  · rw [engineTurn_idle ho] at h
    cases h
    rfl
  · rcases engineTurn_cases h with ⟨hk, hbusy, hdone, herr, _⟩ | ⟨u, _, rfl⟩ | ⟨c, p, _, rfl⟩
    · exact readPort_congr_busy (hI.busy ho) hk.same hbusy hdone herr w a
    · exact absurd hop.symm ho
    · exact absurd hop.symm ho

/-- Settles O14: a read changes only the model's responses and draws, an engine turn that completes
nothing changes no read, and a write that is no command only stores. -/
theorem readsHaveNoSideEffect : Obligations.ReadsHaveNoSideEffect := by
  refine ⟨fun s w a rest h => ?_, fun s t hI h hop w a => readPort_engineTurn hI h hop w a,
    fun s w a d rest hcmd h => ?_⟩
  · obtain ⟨v, d, hread, hval⟩ := hostRead_response w a (s.withInput rest)
    refine ⟨hostRead w a (s.withInput rest), v, ?_, ?_⟩
    · rw [step_cons h, eventTurn_access, accessTurn_other rfl]
      rfl
    · rw [hread]
      exact ⟨rfl, rfl, rfl, hval, fun _ _ => rfl⟩
  · obtain ⟨n, m, hform⟩ := hostWrite_form w a d (s.withInput rest)
    exact ⟨_, step_write h hcmd, by rw [hform]; rfl⟩

/-! ### A completed result stays -/

/-- A step of an idle block that takes no command but NOP takes nothing, a reset or a port access
(10_state.md R33, 42_command.md R161). -/
theorem step_idle_cases {s t : State} (hop : s.op = .none) (h : step s = .next t)
    (hnop : ∀ w rest, s.input = .access (.write .w32 0x004#32 w) :: rest →
      w.extractLsb' 0 2 = 0#2) :
    (∃ rest, t = s.withInput rest) ∨
      (∃ rest, s.input = .reset :: rest ∧ t = applyReset (s.withInput rest)) ∨
      (∃ a rest, t = hostAccess a (s.withInput rest)) := by
  rcases step_cases h with ⟨_, h⟩ | ⟨rest, ⟨_, h⟩ | hreset | ⟨w, hi, h⟩ | ⟨a, _, _, haccess⟩⟩
  · rw [engineTurn_idle hop] at h
    cases h
    exact .inl ⟨s.input, rfl⟩
  · rw [engineTurn_idle (s := s.withInput rest) hop] at h
    cases h
    exact .inl ⟨rest, rfl⟩
  · exact .inr (.inl ⟨rest, hreset⟩)
  · obtain ⟨g, hg⟩ := decodeCommand_nop (hnop w rest hi)
    rw [hg, exec_nop] at h
    cases h
    exact .inl ⟨rest, rfl⟩
  · exact .inr (.inr ⟨a, rest, haccess⟩)

/-- An access that is no command leaves the result and OUT as they are (20_memory.md R60). -/
theorem hostAccess_result (a : Access) (s : State) :
    (hostAccess a s).result = s.result ∧ (hostAccess a s).outBuf = s.outBuf := by
  cases a <;> simp [hostAccess, State.result, State.statusWord, State.outputSeq]

/-- Settles O16: without a reset or a command, an idle block's step takes nothing or a port access, and
neither changes the result. -/
theorem completedResultStays : Obligations.CompletedResultStays := by
  intro s t hop h hreset hnop
  rcases step_idle_cases hop h hnop with ⟨rest, rfl⟩ | ⟨rest, hi, _⟩ | ⟨a, rest, rfl⟩
  · exact ⟨rfl, rfl, hop⟩
  · exact absurd hi (hreset rest)
  · obtain ⟨hresult, hout⟩ := hostAccess_result a (s.withInput rest)
    obtain ⟨_, _, _, hop', _⟩ := hostAccess_frame a (s.withInput rest)
    exact ⟨hresult, hout, hop'.trans hop⟩

/-! ### The engine leaves the input alone -/

/-- In every reachable state OUT lists exactly the indices below some n, at most OUT_CAP (20_memory.md
R63). -/
theorem Inv.out_keys {s : State} (hI : Inv s) :
    ∃ n, n ≤ s.outCap.toNat ∧ s.outBuf.map Prod.fst = List.range n := by
  cases hb : s.busy
  · by_cases hok : s.done = true ∧ s.err = .noError
    · exact ⟨_, hI.outLen_le hok.1, hI.out_done hok.1 hok.2⟩
    · have hnone : s.outBuf = [] := hI.out_none hb (by simpa [imp_iff_not_or] using hok)
      exact ⟨0, Nat.zero_le _, by simp [hnone]⟩
  · exact ⟨_, hI.opos_le hb, hI.out_busy hb⟩

/-- No byte of OUT is stored at or above OUT_CAP (20_memory.md R63). -/
theorem Inv.out_above_cap {s : State} (hI : Inv s) {j : Nat} (hj : s.outCap.toNat ≤ j) :
    Memory.get? s.outBuf j = none := by
  obtain ⟨n, hn, hkeys⟩ := hI.out_keys
  obtain ⟨out, hlen, hget⟩ := Memory.get?_of_keys_range hkeys
  rw [hget, List.getElem?_eq_none (by omega)]

/-- Settles O43: an engine turn keeps the input, and the invariant after it keeps OUT below OUT_CAP. -/
theorem engineLeavesInputAlone : Obligations.EngineLeavesInputAlone := by
  intro s t hI h
  have hkeeps := engine_keeps h
  obtain ⟨_, hcap, _⟩ := hkeeps.same
  exact ⟨hkeeps.same, hkeeps.input, inputSeq_congr hkeeps.same,
    fun j hj => (engineTurn_inv hI h).out_above_cap (by rwa [hcap])⟩

end Sys2Proof.Machine
end

section
/-! PROOFS. Encodings (30_encoding.md): commands by their OP field, streams record by record, `dec` against
the split into records. -/

namespace Sys2Proof

open Sys2Proof.Codec Sys2Proof.Machine

/-! ### Commands by OP -/

theorem decodeCommand_eq_nop {w : Word} (h : w.extractLsb' 0 2 = 0#2) :
    decodeCommand w = .nop (w.extractLsb' 2 30) := by
  simp [decodeCommand, h]

theorem decodeCommand_eq_encode {w : Word} (h : w.extractLsb' 0 2 = 1#2) :
    decodeCommand w = .encode (w.extractLsb' 2 30) := by
  simp [decodeCommand, h]

theorem decodeCommand_eq_decode {w : Word} (h : w.extractLsb' 0 2 = 2#2) :
    decodeCommand w = .decode (w.extractLsb' 2 30) := by
  simp [decodeCommand, h]

theorem decodeCommand_eq_reserved {w : Word} (h : w.extractLsb' 0 2 = 3#2) :
    decodeCommand w = .reserved (w.extractLsb' 2 30) := by
  simp [decodeCommand, h]

@[simp] theorem commandWord_op (g : BitVec 30) (op : BitVec 2) :
    (commandWord g op).extractLsb' 0 2 = op :=
  BitVec.extractLsb'_append_eq_right

@[simp] theorem commandWord_ignored (g : BitVec 30) (op : BitVec 2) :
    (commandWord g op).extractLsb' 2 30 = g :=
  BitVec.extractLsb'_append_eq_left

/-- Settles O18: the two fields of a CMD word are cut out as they were put in, and the bytes of a record
with nothing after them decode to it. -/
theorem decodeInvertsEncode : Obligations.DecodeInvertsEncode := by
  intro i
  cases i with
  | nop g => simp [encode, decode, decodeCommand_eq_nop]
  | encode g => simp [encode, decode, decodeCommand_eq_encode]
  | decode g => simp [encode, decode, decodeCommand_eq_decode]
  | reserved g => simp [encode, decode, decodeCommand_eq_reserved]
  | lit v => exact decodeRecord_join (i := .lit v) (r := []) rfl (by simp)
  | run v len => exact decodeRecord_join (i := .run v len) (r := []) rfl (by simp)

/-- No command's meaning reads bits 31..2 (30_encoding.md R77). -/
theorem exec_decodeCommand_congr {w w' : Word} (h : w.extractLsb' 0 2 = w'.extractLsb' 0 2)
    (s : State) : exec (decodeCommand w) s = exec (decodeCommand w') s := by
  unfold decodeCommand
  rw [h]
  split <;> rfl

/-- The mask of 30_encoding.md R75 keeps OP. -/
theorem and_three_op (w : Word) : (w &&& 3#32).extractLsb' 0 2 = w.extractLsb' 0 2 := by
  have hones : (3#32).extractLsb' 0 2 = BitVec.allOnes 2 := rfl
  rw [BitVec.extractLsb'_and, hones, BitVec.and_allOnes]

/-- Settles O19: OP selects the constructor, and the mask keeps OP. -/
theorem commandIgnoresHighBits : Obligations.CommandIgnoresHighBits := fun w s =>
  ⟨exec_decodeCommand_congr (and_three_op w).symm s,
    fun h => ⟨_, decodeCommand_eq_nop h⟩, fun h => ⟨_, decodeCommand_eq_encode h⟩,
    fun h => ⟨_, decodeCommand_eq_decode h⟩, fun h => ⟨_, decodeCommand_eq_reserved h⟩⟩

/-- Settles O17, from the OP field of each CMD word and the bytes of each record. -/
theorem writtenWordsDecode : Obligations.WrittenWordsDecode :=
  ⟨decodeCommand_eq_nop rfl, decodeCommand_eq_encode rfl, decodeCommand_eq_decode rfl,
    decodeCommand_eq_reserved rfl, rfl, rfl, rfl⟩

/-! ### A stream, one record at a time -/

theorem decodeRecord_rest_length {bs r : List Byte} {i : Instr}
    (h : decodeRecord bs = .ok (i, r)) : r.length < bs.length := by
  obtain ⟨hbytes, hrec, -⟩ := decodeRecord_split h
  have hpos := recordBytes_pos hrec
  rw [hbytes, List.length_append]
  omega

/-- Fuel for every byte is fuel enough. -/
theorem decodeStreamFuel_congr {m n : Nat} {bs : List Byte} (hm : bs.length ≤ m)
    (hn : bs.length ≤ n) : decodeStreamFuel m bs = decodeStreamFuel n bs := by
  induction m generalizing n bs with
  | zero =>
    obtain rfl := List.length_eq_zero_iff.1 (Nat.le_zero.1 hm)
    cases n <;> rfl
  | succ m ih =>
    cases bs with
    | nil => cases n <;> rfl
    | cons b bs =>
      obtain ⟨n, rfl⟩ : ∃ k, n = k + 1 := ⟨n - 1, by rw [List.length_cons] at hn; omega⟩
      simp only [decodeStreamFuel]
      cases hd : decodeRecord (b :: bs) with
      | error e => rfl
      | ok p =>
        have hlen := decodeRecord_rest_length hd
        simp only [ih (n := n) (bs := p.2) (by omega) (by omega)]

/-- A stream splits into its first record and the records of the rest. -/
theorem decodeStream_of_record {bs r : List Byte} {i : Instr} (h : decodeRecord bs = .ok (i, r)) :
    decodeStream bs = (decodeStream r).map (i :: ·) := by
  have hlen := decodeRecord_rest_length h
  cases bs with
  | nil => cases h
  | cons b bs =>
    simp only [decodeStream, List.length_cons, decodeStreamFuel, h]
    rw [decodeStreamFuel_congr (n := r.length) (by simp at hlen; omega) le_rfl]
    cases decodeStreamFuel r.length r <;> rfl

@[simp] theorem decodeStream_truncated (v : Byte) :
    decodeStream [v, v] = .error (.truncatedMarker v) := by
  simp [decodeStream, decodeStreamFuel, decodeRecord]

/-- Only an empty stream and a truncated marker begin with no record (30_encoding.md R73). -/
theorem decodeRecord_error {bs : List Byte} {e : DecodeReject} (h : decodeRecord bs = .error e) :
    bs = [] ∨ ∃ v, bs = [v, v] := by
  unfold decodeRecord at h
  split at h
  · exact .inl rfl
  · cases h
  · split at h
    · next heq =>
      subst heq
      split at h
      · exact .inr ⟨_, rfl⟩
      · cases h
    · cases h

/-- Induction along a stream: it is empty, it is a truncated marker, or it begins with a record
(30_encoding.md R70, R73). -/
theorem stream_induction {motive : List Byte → Prop} (nil : motive [])
    (truncated : ∀ v, motive [v, v])
    (record : ∀ bs i r, decodeRecord bs = .ok (i, r) → motive r → motive bs) (bs : List Byte) :
    motive bs := by
  induction hn : bs.length using Nat.strong_induction_on generalizing bs with
  | _ n ih =>
    cases hd : decodeRecord bs with
    | ok p => exact record bs p.1 p.2 hd (ih _ (hn ▸ decodeRecord_rest_length hd) _ rfl)
    | error e =>
      rcases decodeRecord_error hd with rfl | ⟨v, rfl⟩
      · exact nil
      · exact truncated v

/-! ### Records to bytes and back -/

theorem encodeStream_cons (i : Instr) (rs : List Instr) :
    encodeStream (i :: rs) = recordBytes i ++ encodeStream rs := rfl

/-- Settles O20, by induction over the records: the bytes of the first decode to it, whatever a
well-formed sequence has after it. -/
theorem streamDecodesToItsRecords : Obligations.StreamDecodesToItsRecords := by
  intro records hwf
  induction records with
  | nil => rfl
  | cons i rs ih =>
    obtain ⟨hrec, hrest, hnext⟩ := wellFormed_cons hwf
    rw [encodeStream_cons, decodeStream_of_record (decodeRecord_join hrec hnext), ih hrest]
    rfl

/-- The converse of `wellFormed_cons`: a record goes before a well-formed sequence whose bytes do not
begin with the literal's own. -/
theorem wellFormed_cons_of {i : Instr} {rs : List Instr} (hrec : i.isRecord = true)
    (hrest : Stream.wellFormed rs = true)
    (hnext : ∀ v, i = .lit v → (encodeStream rs).head? ≠ some v) :
    Stream.wellFormed (i :: rs) = true := by
  cases rs with
  | nil => exact hrec
  | cons j rs =>
    have hj : j.isRecord = true := (wellFormed_cons hrest).1
    have hmay : i.mayPrecede j = true := by
      cases i with
      | lit v =>
        have hne := hnext v rfl
        rw [encodeStream_cons, recordBytes_head hj] at hne
        simpa [Instr.mayPrecede] using hne
      | run v len => rfl
      | _ => cases hrec
    simp [Stream.wellFormed, hrec, hmay, hrest]

/-- A stream that splits is the bytes of its records, which are well-formed. -/
theorem encodeStream_of_decodeStream {bs : List Byte} {records : List Instr}
    (h : decodeStream bs = .ok records) :
    encodeStream records = bs ∧ Stream.wellFormed records = true := by
  induction bs using stream_induction generalizing records with
  | nil => cases h; exact ⟨rfl, rfl⟩
  | truncated v => simp at h
  | record bs i r hd ih =>
    rw [decodeStream_of_record hd] at h
    cases hr : decodeStream r with
    | error e => simp [hr, Except.map] at h
    | ok rs =>
      rw [hr] at h
      cases h
      obtain ⟨hbytes, hwf⟩ := ih hr
      obtain ⟨hsplit, hrec, hnext⟩ := decodeRecord_split hd
      exact ⟨by rw [encodeStream_cons, hbytes, hsplit],
        wellFormed_cons_of hrec hwf (by rwa [hbytes])⟩

/-! ### `dec` against the split into records -/

/-- The scan takes a record at a boundary to the next boundary (41_decode.md R139, R140). -/
theorem decScan_record {p : Byte} {a : Bool} {pos : Nat} {o bs r : List Byte} {i : Instr}
    (hd : decodeRecord bs = .ok (i, r)) (hb : AtBoundary p a bs) :
    ∃ p' a', AtBoundary p' a' r ∧ decScan false p a pos o bs =
      decScan false p' a' (pos + (recordBytes i).length) (o ++ expand i) r := by
  obtain ⟨rfl, hrec, hnext⟩ := decodeRecord_split hd
  cases i with
  | lit v => exact ⟨v, true, fun _ => hnext v rfl, decScan_literal hb⟩
  | run v len => exact ⟨v, false, nofun, decScan_run hb⟩
  | _ => cases hrec

/-- From a boundary a stream either splits, and the scan Puts what its records stand for, or it ends in a
truncated marker, where the scan raises MALFORMED (41_decode.md R133 to R136, 60_exceptions.md R201). -/
theorem decScan_decodeStream {p : Byte} {a : Bool} (pos : Nat) (o : List Byte) {bs : List Byte}
    (hb : AtBoundary p a bs) :
    (∃ rs, decodeStream bs = .ok rs ∧ decScan false p a pos o bs = .ok (o ++ rs.flatMap expand)) ∨
    (∃ v q, decodeStream bs = .error (.truncatedMarker v) ∧ q + 1 = pos + bs.length ∧
      decScan false p a pos o bs = .malformed q) := by
  induction bs using stream_induction generalizing p a pos o with
  | nil => exact .inl ⟨[], rfl, by simp [decScan]⟩
  | truncated v => exact .inr ⟨v, pos + 1, by simp, rfl, by rw [decScan_literal hb]; simp [decScan]⟩
  | record bs i r hd ih =>
    obtain ⟨p', a', hb', hscan⟩ := decScan_record (pos := pos) (o := o) hd hb
    obtain ⟨hbytes, -, -⟩ := decodeRecord_split hd
    rw [decodeStream_of_record hd, hscan]
    rcases ih (pos + (recordBytes i).length) (o ++ expand i) hb' with
      ⟨rs, hrs, hok⟩ | ⟨v, q, herr, hq, hmal⟩
    · exact .inl ⟨i :: rs, by rw [hrs]; rfl, by rw [hok]; simp⟩
    · refine .inr ⟨v, q, by rw [herr]; rfl, ?_, hmal⟩
      rw [hq, hbytes, List.length_append, Nat.add_assoc]

/-- A whole stream splits exactly where `dec` succeeds, and `dec` gives what its records stand for. -/
theorem dec_decodeStream (y : List Byte) :
    (∃ rs, decodeStream y = .ok rs ∧ dec y = .ok (rs.flatMap expand)) ∨
    (∃ v q, decodeStream y = .error (.truncatedMarker v) ∧ q + 1 = y.length ∧
      dec y = .malformed q) := by
  cases y with
  | nil => exact .inl ⟨[], rfl, rfl⟩
  | cons b bs =>
    have hb : AtBoundary (sentinel b) true (b :: bs) :=
      fun _ h => sentinel_ne b (Option.some.inj h).symm
    simpa [dec_eq] using decScan_decodeStream 0 [] hb

/-- Settles O21: a stream that splits is put together again, and one that does not is malformed. -/
theorem streamsParseUniquely : Obligations.StreamsParseUniquely := by
  refine ⟨fun _ _ => encodeStream_of_decodeStream, fun y => ?_⟩
  rcases dec_decodeStream y with ⟨rs, hrs, hok⟩ | ⟨v, q, herr, -, hmal⟩
  · simp [hrs, hok]
  · simp [herr, hmal]

/-- Settles O22: the records' bytes split into them, so `dec` gives what they stand for. -/
theorem recordsStandForTheirRuns : Obligations.RecordsStandForTheirRuns := by
  refine ⟨fun records hwf => ?_, fun _ _ => rfl, fun v n h2 h257 => ⟨if_neg (by omega), ?_⟩⟩
  · have hsplit := streamDecodesToItsRecords records hwf
    rcases dec_decodeStream (encodeStream records) with ⟨rs, hrs, hok⟩ | ⟨v, q, herr, -, -⟩
    · obtain rfl : rs = records := Except.ok.inj (hrs.symm.trans hsplit)
      exact hok
    · cases herr.symm.trans hsplit
  · rw [BitVec.toNat_ofNat]
    omega

end Sys2Proof
end

section
/-! PROOFS. A table word placed by `withFetchWord` (log 12, log 14): as a CMD write, or as the input of a
DECODE whose engine turn is next. -/

namespace Sys2Proof.Machine

/-- Below N and not at a marker, the record decoded from the next input bytes is run (41_decode.md R130,
R133). -/
theorem decodeTurn_runs_record {s : State} {i : Instr} {r : List Byte}
    (hlt : s.ipos.toNat < s.inLen.toNat) (hmark : s.isMarker s.currentByte = false)
    (hd : decodeRecord ((s.inputSeq.drop s.ipos.toNat).take 3) = .ok (i, r)) :
    decodeTurn s = exec i s := by
  unfold decodeTurn
  simp [hlt, hmark, decode, fetchBytes_eq, hd]

/-- Bytes stored from IN[0] on, IN_LEN of them, are the input sequence. -/
theorem inputSeq_setAll {s : State} {m : List Host.Cell} {bs : List Byte}
    (hbuf : s.inBuf = Memory.setAll m 0 bs) (hlen : s.inLen.toNat = bs.length) :
    s.inputSeq = bs := by
  apply List.ext_getElem (by simp [State.inputSeq, hlen])
  intro k _ hk
  simp [State.inputSeq, State.inByte, hbuf, Memory.get?_setAll, hk]

/-- The DECODE start of a non-empty input stands at its first byte, which is no marker (41_decode.md
R131, R132, R139). -/
theorem startDecode_at_first {s : State} (hne : s.inLen ≠ 0#32) :
    (startDecode s).op = .dec ∧ (startDecode s).ipos = 0#32 ∧
      (startDecode s).isMarker (startDecode s).currentByte = false := by
  rw [startDecode_nonempty hne]
  refine ⟨rfl, rfl, ?_⟩
  show (true && s.inByte 0 == sentinel (s.inByte 0)) = false
  simpa using (sentinel_ne _).symm

/-- The state that `placeStream` starts its DECODE in: the bytes stand at IN[0..), IN_LEN is their
number. -/
def State.withStream (s : State) (bs : List Byte) : State :=
  { s with inBuf := Memory.setAll s.inBuf 0 bs, inLen := BitVec.ofNat 32 bs.length }

theorem placeStream_eq (bs : List Byte) (s : State) :
    placeStream bs s = (startDecode (s.withStream bs)).withInput (.engine :: s.input) := rfl

theorem withStream_inLen (s : State) {bs : List Byte} (hlen : bs.length < 2 ^ 32) :
    (s.withStream bs).inLen.toNat = bs.length :=
  (BitVec.toNat_ofNat ..).trans (Nat.mod_eq_of_lt hlen)

/-- Placed bytes are the whole input of a DECODE at its first byte, whatever events are still to come. -/
theorem placeStream_at_first (s : State) {bs : List Byte} (hpos : 0 < bs.length)
    (hlen : bs.length < 2 ^ 32) (es : List Event) :
    let u := (placeStream bs s).withInput es
    u.op = .dec ∧ u.ipos = 0#32 ∧ u.inLen.toNat = bs.length ∧ u.inputSeq = bs ∧
      u.isMarker u.currentByte = false := by
  have hN : (s.withStream bs).inLen.toNat = bs.length := withStream_inLen s hlen
  have hne : (s.withStream bs).inLen ≠ 0#32 := fun h0 => by simp [h0] at hN; omega
  have hsame := (startDecode_keeps (s.withStream bs)).same
  have hseq : (startDecode (s.withStream bs)).inputSeq = bs :=
    (inputSeq_congr hsame).trans (inputSeq_setAll rfl hN)
  obtain ⟨hop, hipos, hmark⟩ := startDecode_at_first hne
  obtain ⟨-, -, hinLen, -⟩ := hsame
  rw [placeStream_eq]
  exact ⟨hop, hipos, hinLen ▸ hN, hseq, hmark⟩

/-- The engine turn after `placeStream` runs the record that the placed bytes are (log 12). -/
theorem step_placeStream {bs r : List Byte} {i : Instr} (hlen : bs.length ≤ 3)
    (hd : decodeRecord bs = .ok (i, r)) (s : State) :
    step (placeStream bs s) = exec i ((placeStream bs s).withInput s.input) := by
  have hrest := decodeRecord_rest_length hd
  obtain ⟨hop, hipos, hN, hseq, hmark⟩ :=
    placeStream_at_first (bs := bs) s (by omega) (by omega) s.input
  rw [step_cons (e := .engine) (rest := s.input) rfl, eventTurn_engine, engineTurn, hop]
  refine decodeTurn_runs_record (r := r) ?_ hmark ?_
  · rw [hipos, hN, BitVec.toNat_ofNat]
    omega
  · rw [hipos, hseq]
    simpa [List.take_of_length_le hlen] using hd

/-- A placed code is the next instruction run, if it is a CMD word or at most one record long. -/
theorem step_placeCode {c : Code} {i : Instr} {r : List Byte}
    (hlen : ∀ bs, c = .stream bs → bs.length ≤ 3) (hd : decode c = .ok (i, r)) (s : State) :
    step (placeCode c s) = exec i ((placeCode c s).withInput s.input) := by
  cases c with
  | command w =>
    cases hd
    have hinput : (placeCode (.command w) s).input = .access (.write .w32 0x004#32 w) :: s.input := rfl
    rw [step_cons hinput, eventTurn_access, accessTurn_command]
  | stream bs => exact step_placeStream (hlen bs rfl) hd s

/-- A table word of at most 32 bits is a CMD word or at most three bytes (log 14). -/
theorem tableCode_stream_length {nbits w : Nat} (hn : nbits ≤ 32) {bs : List Byte}
    (h : tableCode nbits w = .stream bs) : bs.length ≤ 3 := by
  unfold tableCode at h
  split at h
  · cases h
  · cases h
    rw [tableBytes_len]
    omega

theorem decode_of_decodeTableWord {nbits w : Nat} {i : Instr}
    (h : decodeTableWord nbits w = some i) : ∃ r, decode (tableCode nbits w) = .ok (i, r) := by
  unfold decodeTableWord at h
  split at h
  · next r hd => cases h; exact ⟨r, hd⟩
  · cases h

/-- Settles O24: a CMD word is the next write and runs the command it decodes to; the bytes of a stream
record are the input of the DECODE whose engine turn is next. -/
theorem fetchWordIsRunNext : Obligations.FetchWordIsRunNext := by
  intro s nbits w i hn hi
  obtain ⟨r, hd⟩ := decode_of_decodeTableWord hi
  exact step_placeCode (fun _ => tableCode_stream_length hn) hd s

end Sys2Proof.Machine
end

section
/-! PROOFS. The pure encoder (40_encode.md R101 to R103): what its single pass writes, how long its output
is, and when a bounded output overflows. -/

namespace Sys2Proof.Codec

/-! ### The encoder as a pass over its open chunk -/

theorem encodeRuns_runs (x : List Byte) : encodeRuns (runs x) = enc x := rfl

/-- The encoding of a non-empty sequence is what the pass writes once the first byte has opened a chunk
(40_encode.md R103, R105). -/
theorem enc_cons (b : Byte) (bs : List Byte) : enc (b :: bs) = openChunkBytes b 1 bs := by
  rw [openChunkBytes_eq bs b 1 (Nat.le_refl 1) (by omega), ← runs_cons, encodeRuns_runs]

@[simp] theorem record_one (v : Byte) : record v 1 = [v] := rfl

/-! ### Input without repetition -/

/-- Where no byte equals the one before it, every chunk is a literal (40_encode.md R112). -/
theorem openChunkBytes_of_ne {v : Byte} {bs : List Byte} (h : (v :: bs).IsChain (· ≠ ·)) :
    openChunkBytes v 1 bs = v :: bs := by
  induction bs generalizing v with
  | nil => simp [openChunkBytes]
  | cons b bs ih =>
    obtain ⟨hne, htail⟩ := List.isChain_cons_cons.1 h
    simp [openChunkBytes, hne.symm, ih htail]

/-- Settles O56: no byte extends the open chunk, so the pass writes each byte as it stands. -/
theorem noRepetitionEncodesToItself : Obligations.NoRepetitionEncodesToItself := by
  intro x hx
  have hchain : x.IsChain (· ≠ ·) := by
    refine List.isChain_iff_getElem.2 fun i hi heq => hx i hi ?_
    rw [List.getElem?_eq_getElem hi, List.getElem?_eq_getElem (Nat.lt_of_succ_lt hi), heq]
  cases x with
  | nil => rfl
  | cons b bs => rw [enc_cons, openChunkBytes_of_ne hchain]

/-! ### The output length -/

/-- One run's encoding: three bytes for each full chunk, then the remainder's record (40_encode.md
R111). -/
theorem encodeRun_length (v : Byte) (l : Nat) :
    ((chunks 257 l).flatMap (record v)).length =
      3 * (l / 257) + (if l % 257 = 0 then 0 else if l % 257 = 1 then 1 else 3) := by
  have hfull : ((List.replicate (l / 257) 257).flatMap (record v)).length = 3 * (l / 257) := by
    simp [List.length_flatMap, record_len, Nat.mul_comm]
  have hrest : ((if l % 257 = 0 then [] else [l % 257]).flatMap (record v)).length =
      if l % 257 = 0 then 0 else if l % 257 = 1 then 1 else 3 := by
    split
    · rfl
    · simp [record_len]
  rw [chunks, List.flatMap_append, List.length_append, hfull, hrest]

theorem encodeRun_length_le (v : Byte) (l : Nat) :
    2 * ((chunks 257 l).flatMap (record v)).length ≤ 3 * l := by
  rw [encodeRun_length]
  split
  · omega
  · split <;> omega

/-- Runs encode to at most 3/2 of the bytes they stand for (40_encode.md R111). -/
theorem encodeRuns_length_le (rs : List (Byte × Nat)) :
    2 * (encodeRuns rs).length ≤ 3 * (rs.flatMap fun r => List.replicate r.2 r.1).length := by
  induction rs with
  | nil => simp [encodeRuns]
  | cons r rs ih =>
    have hrun := encodeRun_length_le r.1 r.2
    simp only [encodeRuns, List.flatMap_cons, List.length_append, List.length_replicate] at ih ⊢
    omega

theorem runs_replicate (v : Byte) (l : Nat) : runs (List.replicate (l + 1) v) = [(v, l + 1)] := by
  induction l with
  | zero => rfl
  | succ l ih => rw [List.replicate_succ, runs, ih]; simp

/-- Settles O54: the bound holds run by run, and a single run is its full chunks and its remainder. -/
theorem encodedLengthBound : Obligations.EncodedLengthBound := by
  refine ⟨fun x => ?_, fun v l => ?_⟩
  · have hle : 2 * (enc x).length ≤ 3 * x.length := by
      simpa only [runs_expand, encodeRuns_runs] using encodeRuns_length_le (runs x)
    omega
  · cases l with
    | zero => rfl
    | succ l =>
      have henc : enc (List.replicate (l + 1) v) = (chunks 257 (l + 1)).flatMap (record v) := by
        simp [enc, encWith, runs_replicate, Config.maxRun]
      rw [henc, encodeRun_length]

/-! ### The bounded encoder -/

/-- How a bounded pass with `all` to write ends: with all of it if it fits, else in OVERFLOW at an index
up to `last` (40_encode.md R107, R108). -/
def WritesOrOverflows (cap : Nat) (all : List Byte) (last : Nat) (r : Bounded) : Prop :=
  (all.length ≤ cap → r = .ok all) ∧ (cap < all.length → ∃ p, p ≤ last ∧ r = .overflow p)

/-- The bounded pass from an open chunk of n bytes v at `pos` on. -/
theorem encScan_openChunk (cap : Nat) (v : Byte) (n pos : Nat) (out bs : List Byte) :
    WritesOrOverflows cap (out ++ openChunkBytes v n bs) (pos + bs.length)
      (encScan 257 cap (some (v, n)) pos out bs) := by
  induction bs generalizing v n pos out with
  | nil =>
    simp only [WritesOrOverflows, openChunkBytes, encScan, List.length_append]
    exact ⟨fun hfits => if_pos hfits, fun hover => ⟨pos, Nat.le_refl pos, if_neg (by omega)⟩⟩
  | cons b bs ih =>
    have hlast : pos + (b :: bs).length = pos + 1 + bs.length := by
      rw [List.length_cons]
      omega
    rw [hlast, openChunkBytes, encScan]
    by_cases hext : b = v ∧ n ≠ 257
    · rw [if_pos hext, if_pos hext]
      exact ih v (n + 1) (pos + 1) out
    · rw [if_neg hext, if_neg hext, ← List.append_assoc]
      by_cases hfits : out.length + (record v n).length ≤ cap
      · rw [if_pos hfits]
        exact ih b 1 (pos + 1) (out ++ record v n)
      · rw [if_neg hfits]
        simp only [WritesOrOverflows, List.length_append]
        exact ⟨fun h => by omega, fun _ => ⟨pos, by omega, rfl⟩⟩

/-- Settles O59: the first byte opens a chunk, and the pass from there on writes the encoding. -/
theorem encoderOverflowsExactlyAboveCapacity : Obligations.EncoderOverflowsExactlyAboveCapacity := by
  intro cap x
  show WritesOrOverflows cap (enc x) x.length (encBounded cap x)
  cases x with
  | nil => exact ⟨fun _ => rfl, fun h => absurd h (Nat.not_lt_zero cap)⟩
  | cons b bs =>
    rw [enc_cons, List.length_cons, Nat.add_comm]
    exact encScan_openChunk cap b 1 1 [] bs

end Sys2Proof.Codec
end

section
/-! PROOFS. The ENCODE of the block (40_encode.md R104 to R109): its start, its steps and its finish. -/

namespace Sys2Proof.Machine

/-! ### The start -/

/-- Settles O27: the launch passes its checks, so it is the start, and while BUSY the named registers
read any value. -/
theorem encodeStarts : Obligations.EncodeStarts := by
  intro ignored s hb hl
  have hexec : exec (.encode ignored) s = .next (startEncode s) := by
    rw [exec_encode, launch_ok hb hl]
  have hreads := reads_any_while_busy (startEncode_busy s)
  exact ⟨startEncode s, hexec, statusWord_running rfl rfl rfl, rfl, rfl, rfl, rfl, rfl, rfl, rfl,
    (startEncode_keeps s).same, rfl, rfl, rfl, rfl, rfl, rfl, hreads⟩

/-! ### One step below N -/

/-- The first byte opens a chunk (40_encode.md R105). -/
theorem encodeStep_first {s : State} (he : s.eOpen = false) :
    encodeStep s = .ok { openChunk s.currentByte s with ipos := s.ipos + 1#32 } := by
  simp [encodeStep, encodeByte, he, Except.bind]

/-- A byte equal to the open chunk's, below MAX_RUN, is counted (40_encode.md R105). -/
theorem encodeStep_extend {s : State} (he : s.eOpen = true) (hb : s.currentByte = s.eVal)
    (hf : s.chunkFull = false) :
    encodeStep s = .ok { extendChunk s with ipos := s.ipos + 1#32 } := by
  simp [encodeStep, encodeByte, he, hb, hf, Except.bind]

/-- Any other byte closes the chunk and opens its own (40_encode.md R105). -/
theorem encodeStep_close {s : State} (he : s.eOpen = true)
    (hc : ¬(s.currentByte = s.eVal ∧ s.chunkFull = false)) :
    encodeStep s = (emitChunk s).bind fun t =>
      .ok { openChunk s.currentByte t with ipos := t.ipos + 1#32 } := by
  simp only [encodeStep, encodeByte, he, hc, Bool.not_true, Bool.false_eq_true, if_false]
  cases emitChunk s <;> rfl

/-- Closing a chunk appends its record, or overflows at the scan index if it does not fit (40_encode.md
R107). -/
theorem encodeStep_close_spec {s : State} (he : s.eOpen = true)
    (hc : ¬(s.currentByte = s.eVal ∧ s.chunkFull = false)) (hop : s.opos.toNat ≤ s.outCap.toNat) :
    encodeStep s = if s.opos.toNat + s.chunkRecord.length ≤ s.outCap.toNat then
        .ok { openChunk s.currentByte (s.appended s.chunkRecord) with ipos := s.ipos + 1#32 }
      else .error ⟨.overflow, s.ipos⟩ := by
  rw [encodeStep_close he hc, emitChunk_spec hop]
  split <;> rfl

theorem chunkFull_eq_false_iff (s : State) :
    s.chunkFull = false ↔ ¬(s.eRep = true ∧ s.eCnt = 0xFF#8) := by
  rw [← chunkFull_iff, Bool.not_eq_true]

theorem extendChunk_of_single {s : State} (hr : s.eRep = false) :
    extendChunk s = { s with eRep := true, eCnt := 0#8 } := by
  simp [extendChunk, hr]

theorem extendChunk_of_repeated {s : State} (hr : s.eRep = true) :
    extendChunk s = { s with eCnt := s.eCnt + 1#8 } := by
  simp [extendChunk, hr]

/-- With no event to come, the step of a running ENCODE below N is the encoder's step. -/
theorem step_encode_below {s : State} (ho : s.op = .enc) (hi : s.input = [])
    (hlt : s.ipos.toNat < s.inLen.toNat) : step s = .next (settle s (encodeStep s)) := by
  rw [step_enc ho hi, encodeTurn, if_pos hlt]

/-- A step with no event to come is an engine turn, which keeps the input. -/
theorem step_nil_sameInput {s t : State} (hi : s.input = []) (h : step s = .next t) :
    SameInput s t :=
  (engine_keeps (step_nil hi ▸ h)).same

/-- Settles O40, by the case of the byte: it opens the first chunk, is counted, or closes the chunk, and
a closed chunk's record fits or overflows. -/
theorem encodeStepEffect : Obligations.EncodeStepEffect := by
  intro s ho hi hlt hop
  have hstep := step_encode_below ho hi hlt
  refine ⟨_, hstep, step_nil_sameInput hi hstep, fun he => ?first, fun he hb hr => ?second,
    fun he hb hr hn => ?more, fun he hc => ?close⟩
  case first => rw [encodeStep_first he]; rfl
  case second =>
    have hf : s.chunkFull = false := (chunkFull_eq_false_iff s).2 (by simp [hr])
    rw [encodeStep_extend he hb hf, extendChunk_of_single hr]
    rfl
  case more =>
    have hf : s.chunkFull = false := (chunkFull_eq_false_iff s).2 fun hfull => hn hfull.2
    rw [encodeStep_extend he hb hf, extendChunk_of_repeated hr]
    rfl
  case close =>
    have hclose : ¬(s.currentByte = s.eVal ∧ s.chunkFull = false) := by
      rintro ⟨hb, hf⟩
      rcases hc with hne | hfull
      · exact hne hb
      · exact (chunkFull_eq_false_iff s).1 hf hfull
    rw [encodeStep_close_spec he hclose hop]
    refine ⟨fun (hfits : s.opos.toNat + s.chunkRecord.length ≤ s.outCap.toNat) => ?_,
      fun (hover : s.outCap.toNat < s.opos.toNat + s.chunkRecord.length) => ?_⟩
    · rw [if_pos hfits, settle_ok]
      refine ⟨fun j => Memory.get?_setAll s.chunkRecord s.outBuf s.opos.toNat j,
        State.appended_opos hfits, ?_⟩
      simp [openChunk, State.appended, State.currentByte, he]
    · rw [if_neg (Nat.not_le.2 hover), settle_error]
      exact ⟨statusWord_error rfl, rfl, rfl, rfl⟩

/-! ### The finish -/

/-- What the finish writes: the open chunk's record, if there is one (40_encode.md R106). -/
def State.finishBytes (s : State) : List Byte := if s.eOpen then s.chunkRecord else []

/-- The finish appends its bytes and completes, or overflows at the scan index (40_encode.md R106,
R107). -/
theorem encodeFinish_spec {s : State} (h : s.opos.toNat ≤ s.outCap.toNat) :
    encodeFinish s = if s.opos.toNat + s.finishBytes.length ≤ s.outCap.toNat then
        .ok (completeOk (s.appended s.finishBytes))
      else .error ⟨.overflow, s.ipos⟩ := by
  have hput : (if s.eOpen then emitChunk s else .ok s) = putAll s.finishBytes s := by
    unfold State.finishBytes
    cases s.eOpen <;> rfl
  rw [encodeFinish, hput, putAll_spec _ h]
  split <;> rfl

/-- With no event to come, the step of a running ENCODE at N is the encoder's finish. -/
theorem step_encode_end {s : State} (ho : s.op = .enc) (hi : s.input = [])
    (hN : s.ipos = s.inLen) : step s = .next (settle s (encodeFinish s)) := by
  rw [step_enc ho hi, encodeTurn, if_neg (by simp [hN]), if_pos hN]

/-- Settles O41: the finish's bytes fit and it completes, or they do not and it overflows at N. -/
theorem encodeFinishEffect : Obligations.EncodeFinishEffect := by
  intro s ho hi hN hop
  have hstep := step_encode_end ho hi hN
  have hsame := step_nil_sameInput hi hstep
  rw [encodeFinish_spec hop] at hstep hsame
  by_cases hfits : s.opos.toNat + s.finishBytes.length ≤ s.outCap.toNat
  · rw [if_pos hfits, settle_ok] at hstep hsame
    exact ⟨_, hstep, hsame, rfl, rfl,
      fun _ => ⟨statusWord_completeOk _, rfl, State.appended_opos hfits,
        fun j => Memory.get?_setAll s.finishBytes s.outBuf s.opos.toNat j⟩,
      fun hover => absurd hfits (Nat.not_le.2 hover)⟩
  · rw [if_neg hfits, settle_error] at hstep hsame
    exact ⟨_, hstep, hsame, rfl, rfl, fun h => absurd h hfits,
      fun _ => ⟨statusWord_error rfl, hN, rfl⟩⟩

/-! ### The counter of the open chunk -/

/-- What a step may do to e_rep and e_cnt: nothing, open a chunk, count its second occurrence, or count
one more without wrapping (40_encode.md R109). -/
def CountsUp (s t : State) : Prop :=
  (t.eRep = s.eRep ∧ t.eCnt = s.eCnt) ∨
  (t.eRep = false ∧ t.eCnt = 0#8) ∨
  (s.eRep = false ∧ t.eRep = true ∧ t.eCnt = 0#8) ∨
  (s.eRep = true ∧ t.eRep = true ∧ t.eCnt.toNat = s.eCnt.toNat + 1)

/-- Below 255 the counter does not wrap. -/
theorem eCnt_succ {n : Byte} (h : n ≠ 0xFF#8) : (n + 1#8).toNat = n.toNat + 1 := by
  have hlt : n.toNat ≠ 255 := fun e => h (BitVec.eq_of_toNat_eq e)
  have := n.isLt
  rw [BitVec.toNat_add, BitVec.toNat_ofNat]
  omega

/-- Counting an occurrence in a chunk that is not full (40_encode.md R105). -/
theorem extendChunk_countsUp {s : State} (hf : s.chunkFull = false) : CountsUp s (extendChunk s) := by
  cases hr : s.eRep
  · rw [extendChunk_of_single hr]
    exact .inr (.inr (.inl ⟨hr, rfl, rfl⟩))
  · have hn : s.eCnt ≠ 0xFF#8 := fun e => (chunkFull_eq_false_iff s).1 hf ⟨hr, e⟩
    rw [extendChunk_of_repeated hr]
    exact .inr (.inr (.inr ⟨hr, hr, eCnt_succ hn⟩))

/-- An encoder's step that does not raise counts up or opens a chunk (40_encode.md R105, R109). -/
theorem encodeStep_countsUp {s t : State} (h : encodeStep s = .ok t) : CountsUp s t := by
  by_cases he : s.eOpen = true
  · by_cases hc : s.currentByte = s.eVal ∧ s.chunkFull = false
    · rw [encodeStep_extend he hc.1 hc.2] at h
      cases h
      exact extendChunk_countsUp hc.2
    · rw [encodeStep_close he hc] at h
      cases hemit : emitChunk s with
      | error r => rw [hemit] at h; cases h
      | ok u => rw [hemit] at h; cases h; exact .inr (.inl ⟨rfl, rfl⟩)
  · rw [encodeStep_first (by simpa using he)] at h
    cases h
    exact .inr (.inl ⟨rfl, rfl⟩)

/-- An engine turn that leaves an ENCODE running is an encoder's step that does not raise. -/
theorem engineTurn_enc_running {s t : State} (ho : s.op = .enc) (hto : t.op = .enc)
    (h : engineTurn s = .next t) : encodeStep s = .ok t := by
  rw [engineTurn, ho] at h
  simp only [encodeTurn] at h
  split at h
  · rcases settle_cases s (encodeStep s) with ⟨u, hu, hset⟩ | ⟨e, he, hset⟩ <;> rw [hset] at h <;>
      cases h
    · exact hu
    · cases hto
  · split at h
    · cases h
      rw [encodeFinish] at hto
      generalize (if s.eOpen then emitChunk s else .ok s) = r at hto
      cases r <;> cases hto
    · cases h

/-- A command that leaves an ENCODE running does not touch the open chunk's counter. -/
theorem command_counter {s t : State} {w : Word} (hto : t.op = .enc)
    (h : exec (decodeCommand w) s = .next t) : t.eRep = s.eRep ∧ t.eCnt = s.eCnt := by
  rcases exec_command_cases w s with e | ⟨_, c, _, e⟩ | ⟨_, _, e | e⟩ <;> rw [e] at h <;> cases h
  · exact ⟨rfl, rfl⟩
  · cases hto
  · exact ⟨rfl, rfl⟩
  · exact ⟨startDecode_eRep s, startDecode_eCnt s⟩

/-- Settles O42: only an encoder's step moves the counter of an ENCODE that goes on, and it counts up. -/
theorem encoderCounterNeverWraps : Obligations.EncoderCounterNeverWraps := by
  intro s t ho h hto
  show CountsUp s t
  rcases step_cases h with ⟨_, h⟩ | ⟨rest, ⟨_, h⟩ | ⟨_, rfl⟩ | ⟨w, _, h⟩ | ⟨a, _, _, rfl⟩⟩
  · exact encodeStep_countsUp (engineTurn_enc_running ho hto h)
  · exact encodeStep_countsUp (s := s.withInput rest) (engineTurn_enc_running ho hto h)
  · cases hto
  · exact .inl (command_counter (s := s.withInput rest) hto h)
  · exact .inl (by cases a <;> simp [hostAccess])

end Sys2Proof.Machine
end

section
/-! PROOFS. The pure codec, both ways (41_decode.md R138, R141 to R146, R149): the encoder's output as a
canonical stream, the round trip, how long the decoder's output is, where a stream is malformed, and how
the bounded decoder ends. -/

namespace Sys2Proof.Codec

open Sys2Proof.Machine

/-! ### The records the encoder writes -/

/-- The records that the encoder's pass writes from an open chunk of n bytes v on; their bytes are
`openChunkBytes`. -/
def openChunkRecords (v : Byte) : Nat → List Byte → List Instr
  | n, [] => [chunkInstr v n]
  | n, b :: bs =>
    if b = v ∧ n ≠ 257 then openChunkRecords v (n + 1) bs
    else chunkInstr v n :: openChunkRecords b 1 bs

theorem encodeStream_openChunkRecords (v : Byte) (n : Nat) (bs : List Byte) :
    encodeStream (openChunkRecords v n bs) = openChunkBytes v n bs := by
  induction bs generalizing v n with
  | nil => simp [openChunkRecords, openChunkBytes, encodeStream, chunkInstr_bytes]
  | cons b bs ih =>
    rw [openChunkRecords, openChunkBytes]
    split
    · exact ih v (n + 1)
    · rw [encodeStream_cons, chunkInstr_bytes, ih b 1]

/-- The records stand for the open chunk and the bytes after it (40_encode.md R103). -/
theorem expand_openChunkRecords {v : Byte} {n : Nat} (h1 : 1 ≤ n) (h2 : n ≤ 257) (bs : List Byte) :
    (openChunkRecords v n bs).flatMap expand = List.replicate n v ++ bs := by
  induction bs generalizing v n with
  | nil => simp [openChunkRecords, chunkInstr_expand h1 h2]
  | cons b bs ih =>
    rw [openChunkRecords]
    split
    · next hext =>
      obtain ⟨rfl, hne⟩ := hext
      rw [ih (by omega) (by omega), List.replicate_succ', List.append_assoc, List.singleton_append]
    · rw [List.flatMap_cons, chunkInstr_expand h1 h2, ih (Nat.le_refl 1) (by omega)]
      rfl

/-- The first record is one of the open chunk's byte. -/
theorem openChunkRecords_head (v : Byte) (n : Nat) (bs : List Byte) :
    ∃ m rs, openChunkRecords v n bs = chunkInstr v m :: rs := by
  induction bs generalizing n with
  | nil => exact ⟨n, [], rfl⟩
  | cons b bs ih =>
    rw [openChunkRecords]
    split
    · exact ih (n + 1)
    · exact ⟨n, _, rfl⟩

/-- A record of another value may always follow (41_decode.md R146). -/
theorem mayPrecedeCanonically_of_ne {i j : Instr} (hrec : i.isRecord = true)
    (hne : j.value ≠ i.value) : i.mayPrecedeCanonically j = true := by
  cases i with
  | lit v => simpa [Instr.mayPrecedeCanonically, Instr.value] using hne
  | run v len => simpa [Instr.mayPrecedeCanonically, Instr.value] using .inl hne
  | _ => cases hrec

/-- A closed chunk is followed by another byte's record, or it was full (40_encode.md R105, 41_decode.md
R146). -/
theorem chunkInstr_mayPrecedeCanonically {v b : Byte} {n : Nat} (m : Nat)
    (h : ¬(b = v ∧ n ≠ 257)) :
    (chunkInstr v n).mayPrecedeCanonically (chunkInstr b m) = true := by
  by_cases hb : b = v
  · obtain rfl : n = 257 := not_not.1 fun hn => h ⟨hb, hn⟩
    simp [chunkInstr, Instr.mayPrecedeCanonically, Config.maxRun]
  · refine mayPrecedeCanonically_of_ne (chunkInstr_isRecord v n) ?_
    rw [chunkInstr_value, chunkInstr_value]
    exact fun heq => hb (Option.some.inj heq)

theorem openChunkRecords_canonical (v : Byte) (n : Nat) (bs : List Byte) :
    Stream.canonical (openChunkRecords v n bs) = true := by
  induction bs generalizing v n with
  | nil => exact chunkInstr_isRecord v n
  | cons b bs ih =>
    rw [openChunkRecords]
    split
    · exact ih v (n + 1)
    · next hclose =>
      have htail := ih b 1
      obtain ⟨m, rs, hhead⟩ := openChunkRecords_head b 1 bs
      rw [hhead] at htail ⊢
      simp [Stream.canonical, chunkInstr_isRecord, chunkInstr_mayPrecedeCanonically m hclose, htail]

/-- Settles O53: the encoder's pass writes one record for each chunk it closes, and it closes a chunk
only at another byte or when the chunk is full. -/
theorem encoderOutputIsCanonical : Obligations.EncoderOutputIsCanonical := by
  intro x
  cases x with
  | nil => exact ⟨[], rfl, rfl, rfl⟩
  | cons b bs =>
    refine ⟨openChunkRecords b 1 bs, openChunkRecords_canonical b 1 bs, ?_,
      expand_openChunkRecords (Nat.le_refl 1) (by omega) bs⟩
    rw [encodeStream_openChunkRecords, enc_cons]

/-! ### The round trip -/

theorem mayPrecede_of_canonically {i j : Instr} (h : i.mayPrecedeCanonically j = true) :
    i.mayPrecede j = true := by
  cases i with
  | lit v => exact h
  | run v len => rfl
  | _ => cases h

/-- A canonical stream is well-formed: its neighbours are among those allowed (41_decode.md R146). -/
theorem wellFormed_of_canonical {records : List Instr} (h : Stream.canonical records = true) :
    Stream.wellFormed records = true := by
  induction records with
  | nil => rfl
  | cons i rs ih =>
    cases rs with
    | nil => exact h
    | cons j rs =>
      simp only [Stream.canonical, Stream.wellFormed, Bool.and_eq_true] at h ⊢
      obtain ⟨⟨hrec, hmay⟩, hrest⟩ := h
      exact ⟨⟨hrec, mayPrecede_of_canonically hmay⟩, ih hrest⟩

/-- Settles O52: the encoding is a well-formed stream of records that stand for the input, and `dec` of
such a stream is what its records stand for. -/
theorem decodeInvertsEncodeOnSequences : Obligations.DecodeInvertsEncodeOnSequences := by
  intro x
  obtain ⟨records, hcanonical, hbytes, hexpand⟩ := encoderOutputIsCanonical x
  obtain ⟨hdec, -⟩ := recordsStandForTheirRuns
  rw [← hbytes, hdec records (wellFormed_of_canonical hcanonical), hexpand]

/-! ### The length of the decoder's output -/

/-- A record before n more bytes of stream raises their bound by at least what it stands for
(41_decode.md R145). -/
theorem expand_length_le (i : Instr) (n : Nat) :
    (expand i).length + (257 * (n / 3) + n % 3) ≤
      257 * (((recordBytes i).length + n) / 3) + ((recordBytes i).length + n) % 3 := by
  cases i with
  | lit v =>
    show 1 + _ ≤ 257 * ((1 + n) / 3) + (1 + n) % 3
    omega
  | run v len =>
    have hlen := len.isLt
    rw [expand, List.length_replicate]
    show _ ≤ 257 * ((3 + n) / 3) + (3 + n) % 3
    omega
  | _ => simp [expand, recordBytes]

/-- Settles O55, by induction over the records that the stream splits into. -/
theorem decodedLengthBound : Obligations.DecodedLengthBound := by
  intro y out hout
  rcases dec_decodeStream y with ⟨rs, hrs, hok⟩ | ⟨v, q, -, -, hmal⟩
  · obtain rfl : rs.flatMap expand = out := Decoded.ok.inj (hok.symm.trans hout)
    obtain ⟨rfl, -⟩ := encodeStream_of_decodeStream hrs
    clear hout hrs hok
    induction rs with
    | nil => rfl
    | cons i rs ih =>
      have hfirst := expand_length_le i (encodeStream rs).length
      rw [encodeStream_cons, List.flatMap_cons, List.length_append, List.length_append]
      omega
  · cases hmal.symm.trans hout

/-! ### Malformed streams -/

/-- A stream that does not split ends in its repetition marker (60_exceptions.md R201). -/
theorem truncated_of_decodeStream {bs : List Byte} {v : Byte}
    (h : decodeStream bs = .error (.truncatedMarker v)) : ∃ front, bs = front ++ [v, v] := by
  induction bs using stream_induction with
  | nil => cases h
  | truncated w =>
    rw [decodeStream_truncated] at h
    cases h
    exact ⟨[], rfl⟩
  | record bs i r hd ih =>
    obtain ⟨rfl, -, -⟩ := decodeRecord_split hd
    rw [decodeStream_of_record hd] at h
    cases hr : decodeStream r with
    | ok rs => rw [hr] at h; cases h
    | error e =>
      rw [hr] at h
      obtain ⟨front, rfl⟩ := ih (hr.trans h)
      exact ⟨recordBytes i ++ front, (List.append_assoc ..).symm⟩

/-- Settles O57: a malformed stream does not split, so it ends in an equal pair, and the position is that
of its last byte; the stream of the second clause ends in an equal pair and splits. -/
theorem malformedOnlyAtTheEnd : Obligations.MalformedOnlyAtTheEnd := by
  refine ⟨fun y p hp => ?_, rfl⟩
  rcases dec_decodeStream y with ⟨rs, -, hok⟩ | ⟨v, q, herr, hq, hmal⟩
  · cases hok.symm.trans hp
  · obtain rfl : q = p := Decoded.malformed.inj (hmal.symm.trans hp)
    obtain ⟨front, rfl⟩ := truncated_of_decodeStream herr
    simp only [List.length_append, List.length_cons, List.length_nil] at hq ⊢
    obtain rfl : q = front.length + 1 := by omega
    exact ⟨by omega, rfl, by simp⟩

/-- Settles O58: armed after a run record, the byte after it is taken as a marker again. -/
theorem armedAfterRunBreaksRoundTrip : Obligations.ArmedAfterRunBreaksRoundTrip := by
  refine ⟨rfl, ?_⟩
  have hcopies : (428 : Nat) = 1 + 256 + 171 := rfl
  rw [hcopies, List.replicate_add, List.replicate_add]
  rfl

/-! ### The bounded decoder -/

/-- A scan ends with at least n bytes Put, or in MALFORMED at `pos` or later. -/
def Decoded.Beyond (pos n : Nat) : Decoded → Prop
  | .ok out => n ≤ out.length
  | .malformed q => pos ≤ q

theorem Decoded.Beyond.mono {pos pos' n n' : Nat} {d : Decoded} (h : d.Beyond pos' n')
    (hpos : pos ≤ pos') (hn : n ≤ n') : d.Beyond pos n := by
  cases d with
  | ok out => exact hn.trans h
  | malformed q => exact hpos.trans h

/-- The scan never takes back a Put and never goes back (10_state.md R36, R37). -/
theorem decScan_beyond (arm : Bool) (p : Byte) (a : Bool) (pos : Nat) (o y : List Byte) :
    (decScan arm p a pos o y).Beyond pos o.length := by
  fun_induction decScan arm p a pos o y with
  | case1 p a pos o => exact Nat.le_refl _
  | case2 p a pos o c hm => exact Nat.le_refl _
  | case3 p a pos o c hm => simp [Decoded.Beyond]
  | case4 p a pos o c len rest hm ih => exact ih.mono (by omega) (by simp)
  | case5 p a pos o c len rest hm ih => exact ih.mono (by omega) (by simp)

/-- How a bounded scan ends beside the unbounded one: with the same output if it fits, else in OVERFLOW
before `last`; and in the same MALFORMED unless it overflows before that (41_decode.md R138,
60_exceptions.md R207). -/
def EndsLike (cap last : Nat) : Decoded → Bounded → Prop
  | .ok out, r => (out.length ≤ cap → r = .ok out) ∧
      (cap < out.length → ∃ p, p < last ∧ r = .overflow p)
  | .malformed p, r => r = .malformed p ∨ ∃ q, q < p ∧ r = .overflow q

/-- An overflow at `pos` ends like every scan that goes on to more bytes than fit. -/
theorem endsLike_overflow {cap last pos n : Nat} {d : Decoded} (h : d.Beyond (pos + 1) n)
    (hover : cap < n) (hlast : pos < last) : EndsLike cap last d (.overflow pos) := by
  cases d with
  | ok out =>
    have hlen : n ≤ out.length := h
    exact ⟨fun hfits => by omega, fun _ => ⟨pos, hlast, rfl⟩⟩
  | malformed q => exact .inr ⟨pos, h, rfl⟩

/-- The bounded scan of the bytes y from `pos` on, with what has been Put within the capacity. -/
theorem decBoundedScan_endsLike {cap : Nat} {p : Byte} {a : Bool} {pos : Nat} {o y : List Byte}
    (hfits : o.length ≤ cap) :
    EndsLike cap (pos + y.length) (decScan false p a pos o y) (decBoundedScan cap p a pos o y) := by
  fun_induction decScan false p a pos o y with
  | case1 p a pos o => exact ⟨fun _ => rfl, fun hover => absurd hfits (Nat.not_le.2 hover)⟩
  | case2 p a pos o c hm => exact .inl (by simp [decBoundedScan, hm])
  | case3 p a pos o c hm =>
    rw [decBoundedScan_literal (by simpa using hm)]
    split
    · next hput =>
      exact ⟨fun _ => rfl, fun hover => by simp at hover; omega⟩
    · exact endsLike_overflow (n := o.length + 1) (by simp [Decoded.Beyond]) (by omega) (by simp)
  | case4 p a pos o c len rest hm ih =>
    obtain ⟨rfl, rfl⟩ : a = true ∧ c = p := by simpa using hm
    rw [decBoundedScan_marker]
    split
    · next hput =>
      have hlast : pos + (c :: len :: rest).length = pos + 2 + rest.length := by simp; omega
      rw [hlast]
      exact ih (by simpa using hput)
    · refine endsLike_overflow ((decScan_beyond ..).mono (by omega) (Nat.le_refl _)) ?_ (by simp)
      simp; omega
  | case5 p a pos o c len rest hm ih =>
    rw [decBoundedScan_literal (by simpa using hm)]
    split
    · next hput =>
      have hlast : pos + (c :: len :: rest).length = pos + 1 + (len :: rest).length := by simp; omega
      rw [hlast]
      exact ih (by simpa using hput)
    · refine endsLike_overflow ((decScan_beyond ..).mono (Nat.le_refl _) (Nat.le_refl _)) ?_ (by simp)
      simp; omega

/-- A whole bounded decoding ends like the unbounded one. -/
theorem decBounded_endsLike (cap : Nat) (y : List Byte) :
    EndsLike cap y.length (dec y) (decBounded cap y) := by
  cases y with
  | nil => exact ⟨fun _ => rfl, fun hover => absurd hover (Nat.not_lt_zero cap)⟩
  | cons b bs =>
    have hscan := decBoundedScan_endsLike (p := sentinel b) (a := true) (pos := 0) (o := [])
      (y := b :: bs) (Nat.zero_le cap)
    rwa [Nat.zero_add] at hscan

/-- Settles O60, from the two scans side by side. -/
theorem decoderOverflowsExactlyAboveCapacity : Obligations.DecoderOverflowsExactlyAboveCapacity := by
  intro cap y
  have hends := decBounded_endsLike cap y
  refine ⟨fun out hout => ?_, fun out hout => ?_, fun p hp => ?_⟩
  · rw [hout] at hends
    exact hends.1
  · rw [hout] at hends
    exact hends.2
  · rwa [hp] at hends

end Sys2Proof.Codec
end

section
/-! PROOFS. The DECODE of the block (41_decode.md R131 to R140): its start, its records and markers, and
its finish. -/

namespace Sys2Proof.Machine

/-! ### The sentinel and the start -/

/-- Settles O38, by the sentinel's one branch. -/
theorem sentinelDiffersFromItsByte : Obligations.SentinelDiffersFromItsByte :=
  ⟨fun _ hb => if_neg hb, rfl, sentinel_ne, rfl⟩

/-- Both counters are 0 after a DECODE start, whether or not the input is empty (41_decode.md R132). -/
theorem startDecode_counters (s : State) :
    (startDecode s).ipos = 0#32 ∧ (startDecode s).opos = 0#32 := by
  unfold startDecode
  split <;> exact ⟨rfl, rfl⟩

/-- An operation has Put nothing when it begins (42_command.md R164). -/
theorem holds_begin {s : State} (hpos : s.opos = 0#32) (hout : s.outBuf = []) : Holds s [] := by
  simp [Holds, hpos, hout]

/-- A DECODE of an empty input shows an empty output (41_decode.md R132). -/
theorem result_startDecode_empty {s : State} (hN : s.inLen = 0#32) :
    (startDecode s).result = expectedResult (.ok []) := by
  rw [startDecode_empty hN]
  exact result_complete (holds_begin rfl rfl)

/-- Settles O28: the launch passes its checks, so it is the start, by whether the input is empty. -/
theorem decodeStarts : Obligations.DecodeStarts := by
  intro ignored s hb hl
  have hexec : exec (.decode ignored) s = .next (startDecode s) := by
    rw [exec_decode, launch_ok hb hl]
  obtain ⟨hipos, hopos⟩ := startDecode_counters s
  refine ⟨startDecode s, hexec, (startDecode_keeps s).same, startDecode_input s, hipos, hopos,
    startDecode_eOpen s, startDecode_eVal s, startDecode_eRep s, startDecode_eCnt s,
    fun hN => ?empty, fun hN => ?running⟩
  case empty =>
    have hresult := result_startDecode_empty hN
    rw [startDecode_empty hN] at hresult ⊢
    exact ⟨hresult, rfl, rfl, rfl, rfl⟩
  case running =>
    rw [startDecode_nonempty hN]
    exact ⟨statusWord_running rfl rfl rfl, rfl, rfl, rfl, rfl, rfl, rfl, reads_any_while_busy rfl⟩

/-! ### What an error leaves -/

/-- No byte of OUT is readable as a value after an error (60_exceptions.md R205). -/
theorem readOut_errorCompletion {c : ErrCode} (hc : c ≠ .noError) (p : Word) (s : State) (j : Nat) :
    readOut (errorCompletion c p s) j = .any :=
  readOut_any (by simp [State.outReadable, hc]) j

/-- What the host and the next command find after an error completion with STATUS `w` (60_exceptions.md
R205). -/
theorem errorCompletion_shows {c : ErrCode} {w : Word} (hc : c ≠ .noError)
    (hw : BitVec.ofNat 32 (2 + 4 * c.code.toNat) = w) (p : Word) (s : State) :
    (errorCompletion c p s).statusWord = w ∧ (errorCompletion c p s).errPos = p ∧
      (errorCompletion c p s).outLen = 0#32 ∧ (errorCompletion c p s).op = .none ∧
      ∀ j, readOut (errorCompletion c p s) j = .any :=
  ⟨statusWord_error hw, rfl, rfl, rfl, readOut_errorCompletion hc p s⟩

/-! ### A literal record -/

/-- The literal step while opos is not OUT_CAP (41_decode.md R134). -/
theorem literalStep_of_ne (v : Byte) {s : State} (h : s.opos ≠ s.outCap) :
    literalStep v s = .ok { s with
      outBuf := Memory.set s.outBuf s.opos.toNat v, opos := s.opos + 1#32, dPrev := v,
      dArmed := true, ipos := s.ipos + 1#32 } := by
  simp [literalStep, put, h, Except.bind]

/-- At OUT_CAP it overflows at the scan index (41_decode.md R137). -/
theorem literalStep_full (v : Byte) {s : State} (h : s.opos = s.outCap) :
    literalStep v s = .error ⟨.overflow, s.ipos⟩ := by
  simp [literalStep, put, h, Except.bind]

/-- Settles O32, by whether the literal step finds room for its byte. -/
theorem literalRecordEffect : Obligations.LiteralRecordEffect := by
  intro v s
  refine ⟨fun hne => ⟨_, exec_lit v s, ?_⟩, fun hfull => ⟨_, exec_lit v s, ?_⟩⟩
  · rw [literalStep_of_ne v hne, settle_ok]
    exact ⟨Memory.get?_set_same .., fun j hj => Memory.get?_set_ne _ v hj, rfl, rfl, rfl, rfl, rfl⟩
  · rw [literalStep_full v hfull, settle_error]
    obtain ⟨hstatus, hpos, hlen, hop, hread⟩ :=
      errorCompletion_shows (c := .overflow) (by simp) rfl s.ipos s
    exact ⟨hstatus, hpos, hlen, hop, (keeps_error ..).same, rfl, hread⟩

/-! ### A run record -/

/-- Read after Puts of n copies of one byte. -/
theorem get?_appended_replicate (s : State) (n : Nat) (v : Byte) (j : Nat) :
    Memory.get? (s.appended (List.replicate n v)).outBuf j =
      if s.opos.toNat ≤ j ∧ j < s.opos.toNat + n then some v else Memory.get? s.outBuf j := by
  show Memory.get? (Memory.setAll _ _ _) j = _
  rw [Memory.get?_setAll, List.length_replicate]
  refine if_ctx_congr Iff.rfl (fun hj => ?_) fun _ => rfl
  rw [List.getElem?_replicate, if_pos (by omega)]

/-- A run record's two steps together append the run (30_encoding.md R72, 41_decode.md R134, R135). -/
theorem afterLiteral_afterMarker (v len : Byte) {s : State} (h : s.opos.toNat < s.outCap.toNat) :
    (s.afterLiteral v).afterMarker v len =
      { s.appended (List.replicate (len.toNat + 2) v) with
        dPrev := v, dArmed := false, ipos := s.ipos + 3#32 } := by
  have happend := State.appended_appended (s := s) (bs := [v])
    (List.replicate (len.toNat + 1) v) (by simpa using h)
  rw [List.singleton_append, ← List.replicate_succ] at happend
  rw [← happend]
  simp only [State.afterMarker, State.afterLiteral, State.appended, BitVec.add_assoc]
  rfl

/-- A run record that fits appends its run (41_decode.md R134, R135). -/
theorem exec_run_fits (v len : Byte) {s : State}
    (h : s.opos.toNat + (len.toNat + 2) ≤ s.outCap.toNat) :
    exec (.run v len) s = .next { s.appended (List.replicate (len.toNat + 2) v) with
      dPrev := v, dArmed := false, ipos := s.ipos + 3#32 } := by
  rw [exec_run, run_spec v len (by omega), if_pos h, settle_ok, afterLiteral_afterMarker v len (by omega)]

/-- Settles O33: the record's steps append its run and touch the registers they name. -/
theorem runRecordEffect : Obligations.RunRecordEffect := by
  intro v len s hfits
  have hopos := State.appended_opos (s := s) (bs := List.replicate (len.toNat + 2) v)
    (by rwa [List.length_replicate])
  rw [List.length_replicate] at hopos
  exact ⟨_, exec_run_fits v len hfits, get?_appended_replicate s _ v, hopos, rfl, rfl, rfl, rfl⟩

/-- Settles O34: the record's steps overflow at the literal or at the marker, and the output is
discarded. -/
theorem runRecordOverflow : Obligations.RunRecordOverflow := by
  intro v len s hop hover
  refine ⟨_, exec_run v len s, ?_⟩
  rw [run_spec v len hop, if_neg (Nat.not_le.2 hover), settle_error]
  obtain ⟨hstatus, hpos, hlen, hop', hread⟩ := errorCompletion_shows (c := .overflow) (by simp) rfl
    (if s.opos = s.outCap then s.ipos else s.ipos + 1#32) s
  exact ⟨hstatus, hpos, hlen, hop', (keeps_error ..).same, rfl, hread⟩

/-! ### A marker, byte by byte -/

/-- The byte turn at a record boundary with room for a byte is the literal step (41_decode.md R134,
R139, R140). -/
theorem byteDecodeTurn_boundary {s : State} (hI : Inv s) (ho : s.op = .dec)
    (hlt : s.ipos.toNat < s.inLen.toNat) (hroom : s.opos.toNat < s.outCap.toNat) :
    byteDecodeTurn s = s.afterLiteral s.currentByte := by
  rw [byteDecodeTurn_literal ho hlt (hI.dec_boundary ho hlt),
    literalStep_spec _ (Nat.le_of_lt hroom), if_pos hroom, settle_ok]

/-- With no event to come and an equal byte next, the machine's turn is the literal's byte turn and the
marker's (log 1). -/
theorem step_pair {s : State} (hI : Inv s) (ho : s.op = .dec) (hi : s.input = [])
    (h2 : s.ipos.toNat + 1 < s.inLen.toNat)
    (heq : s.inByte (s.ipos.toNat + 1) = s.currentByte) (hroom : s.opos.toNat < s.outCap.toNat) :
    step s = .next (byteDecodeTurn (s.afterLiteral s.currentByte)) := by
  rw [step_dec ho hi, decodeTurn_lt hI ho (by omega), if_pos ⟨h2, heq⟩,
    literalStep_spec _ (Nat.le_of_lt hroom), if_pos hroom, byteDecodeTurn_afterLiteral ho h2 heq]
  rfl

/-- However a step inside an operation ends, it keeps the input. -/
theorem settle_keeps {s : State} {r : Except Raise State} (h : Steady s r) :
    Keeps s (settle s r) := by
  rcases settle_steady h with ⟨t, -, hsettle, hkeeps, -⟩ | ⟨c, p, -, -, hsettle⟩ <;> rw [hsettle]
  · exact hkeeps
  · exact keeps_error c p s

section
variable {m : State} (ho : m.op = .dec) (hlt : m.ipos.toNat < m.inLen.toNat)
  (hop : m.opos.toNat ≤ m.outCap.toNat) (harmed : m.dArmed = true)
  (hprev : m.inByte m.ipos.toNat = m.dPrev)
include ho hlt harmed hprev

/-- A byte turn at a marker is the marker step (41_decode.md R133, R135). -/
theorem byteDecodeTurn_at_marker : byteDecodeTurn m = settle m (markerTurn m) :=
  byteDecodeTurn_marker ho hlt (by simp [State.isMarker, State.currentByte, harmed, hprev])

theorem byteDecodeTurn_at_marker_keeps : Keeps m (byteDecodeTurn m) := by
  rw [byteDecodeTurn_at_marker ho hlt harmed hprev]
  exact settle_keeps (steady_markerTurn m)

include hop

/-- The marker step, by whether a length byte follows and whether its copies fit (41_decode.md R135,
R137). -/
theorem byteDecodeTurn_at_marker_spec : byteDecodeTurn m =
    if m.ipos.toNat + 1 = m.inLen.toNat then errorCompletion .malformed m.ipos m
    else if m.opos.toNat + ((m.inByte (m.ipos.toNat + 1)).toNat + 1) ≤ m.outCap.toNat then
      m.afterMarker m.dPrev (m.inByte (m.ipos.toNat + 1))
    else errorCompletion .overflow m.ipos m := by
  have hcur : m.currentByte = m.dPrev := hprev
  rw [byteDecodeTurn_at_marker ho hlt harmed hprev, markerTurn_spec hop, hcur]
  split
  · rfl
  · split <;> rfl

end

/-- Settles O35: at a boundary the byte turn is the literal step, which leaves the next byte a marker;
at a marker it is the marker step, by whether a length byte follows and whether its copies fit. -/
theorem markerStepEffect : Obligations.MarkerStepEffect := by
  refine ⟨fun s hI ho h2 heq hne => ?boundary, fun m ho hlt hop harmed hprev => ?marker⟩
  case boundary =>
    have hop := hI.opos_le (hI.busy (by simp [ho]))
    have hroom : s.opos.toNat < s.outCap.toNat :=
      lt_of_le_of_ne hop fun e => hne (BitVec.eq_of_toNat_eq e)
    have hlt : s.ipos.toNat < s.inLen.toNat := by omega
    have hipos := afterLiteral_ipos s.currentByte hlt
    have hopos := afterLiteral_opos (c := s.currentByte) hroom
    rw [byteDecodeTurn_boundary hI ho hlt hroom]
    refine ⟨ho, hipos, ?_, hopos, ?_, rfl, (afterLiteral_currentByte _ hlt).trans heq,
      (afterLiteral_keeps s _).same, fun hi => step_pair hI ho hi h2 heq hroom⟩
    · rw [hipos]; exact h2
    · rw [hopos]; exact hroom
  case marker =>
    have hkeeps := byteDecodeTurn_at_marker_keeps ho hlt harmed hprev
    have hspec := byteDecodeTurn_at_marker_spec ho hlt hop harmed hprev
    refine ⟨hkeeps.same, hkeeps.input, fun hN => ?_, fun hN hfits => ?_, fun hN hover => ?_⟩
    · rw [hspec, if_pos hN]
      exact errorCompletion_shows (by simp) rfl m.ipos m
    · rw [hspec, if_neg hN, if_pos hfits]
      have hopos := State.appended_opos (s := m)
        (bs := List.replicate ((m.inByte (m.ipos.toNat + 1)).toNat + 1) m.dPrev)
        (by rwa [List.length_replicate])
      rw [List.length_replicate] at hopos
      exact ⟨get?_appended_replicate m _ m.dPrev, hopos, ipos_add (k := 2) (by omega), rfl, rfl⟩
    · rw [hspec, if_neg hN, if_neg (Nat.not_le.2 hover)]
      exact errorCompletion_shows (by simp) rfl m.ipos m

/-! ### The finish -/

/-- Settles O37: at N the engine turn is the completion. -/
theorem decodeFinishCompletes : Obligations.DecodeFinishCompletes := by
  intro s ho hi hN
  have hstep : step s = .next (completeOk s) := by
    rw [step_dec ho hi, decodeTurn, if_neg (by simp [hN]), if_pos hN]
  exact ⟨_, hstep, statusWord_completeOk s, rfl, rfl, rfl, rfl⟩

/-! ### Markers at record boundaries -/

/-- Settles O39: the sentinel differs from the first byte, a run record disarms, and a literal arms with
its own byte. -/
theorem neverAMarkerAtARecordBoundary : Obligations.NeverAMarkerAtARecordBoundary := by
  refine ⟨fun g s hb hl hN => ?_, fun v len s hfits => ?_, fun v s hne => ?_⟩
  · obtain ⟨-, -, hmark⟩ := startDecode_at_first hN
    exact ⟨_, by rw [exec_decode, launch_ok hb hl], hmark⟩
  · exact ⟨_, exec_run_fits v len hfits, fun c => rfl⟩
  · exact ⟨_, by rw [exec_lit, literalStep_of_ne v hne, settle_ok], fun c => by simp [State.isMarker]⟩

end Sys2Proof.Machine
end

section
/-! PROOFS. Whole operations (42_command.md R165, R168): from its start an ENCODE or DECODE runs to the
result of the bounded codec over its input, so the result depends on the operands alone and DECODE undoes
ENCODE. -/

namespace Sys2Proof.Machine

open Sys2Proof.Codec

/-! ### A running operation completes with the result it is heading for -/

/-- A turn of a running operation is a good turn towards the result it is heading for. -/
theorem engineTurn_towards {s : State} {R : HostResult} (hI : Inv s) (ho : s.op ≠ .none)
    (hR : WillShow s R) : ∃ t, engineTurn s = .next t ∧ GoodTurn s R t := by
  cases hop : s.op with
  | none => exact absurd hop ho
  | enc =>
    obtain ⟨t, ht, hgood⟩ := encodeTurn_good hI hop hR
    exact ⟨t, by simp [engineTurn, hop, ht], hgood⟩
  | dec =>
    obtain ⟨t, ht, hgood⟩ := decodeTurn_good hI hop hR
    exact ⟨t, by simp [engineTurn, hop, ht], hgood⟩

/-- After n steps of the engine alone nothing runs any more, the result is R, and the input is kept. -/
def CompletesWith (n : Nat) (s : State) (R : HostResult) : Prop :=
  ∃ t, runSteps n s = .next t ∧ t.op = .none ∧ Keeps s t ∧ t.result = R

/-- As many steps as there are turns left complete the operation with the result it is heading for
(42_command.md R165). -/
theorem completesWith_of_willShow {n : Nat} {s : State} {R : HostResult} (hI : Inv s)
    (hi : s.input = []) (hR : WillShow s R) (hn : turnsLeft s ≤ n) : CompletesWith n s R := by
  induction n generalizing s with
  | zero =>
    have ho : s.op = .none := by
      by_contra ho
      rw [turnsLeft_running ho] at hn
      omega
    simp only [WillShow, ho] at hR
    exact ⟨s, rfl, ho, Keeps.refl s, hR⟩
  | succ n ih =>
    by_cases ho : s.op = .none
    · simp only [WillShow, ho] at hR
      exact ⟨s, runSteps_idle ho hi _, ho, Keeps.refl s, hR⟩
    · obtain ⟨t, ht, hIt, hkeeps, hRt, hless, -⟩ := engineTurn_towards hI ho hR
      obtain ⟨u, hu, huo, hkeeps', huR⟩ := ih hIt (hkeeps.input.trans hi) hRt (by omega)
      exact ⟨u, (runSteps_succ n ((step_nil hi).trans ht)).trans hu, huo,
        hkeeps.trans hkeeps', huR⟩

/-! ### From the command to its result -/

/-- The input still to read at scan index 0 is the operand (30_encoding.md R76). -/
theorem unread_of_ipos_zero {s : State} (h : s.ipos = 0#32) : unread s = s.inputSeq := by
  simp [unread, h]

/-- An ENCODE heads from its start for the result of the bounded encoder (40_encode.md R104). -/
theorem startEncode_willShow (s : State) :
    WillShow (startEncode s) (expectedResult (encBounded s.outCap.toNat s.inputSeq)) := by
  refine ⟨[], holds_begin rfl rfl, ?_⟩
  rw [unread_of_ipos_zero rfl, inputSeq_congr (startEncode_keeps s).same]
  rfl

/-- A DECODE heads from its start for the result of the bounded decoder (41_decode.md R132). -/
theorem startDecode_willShow (s : State) :
    WillShow (startDecode s) (expectedResult (decBounded s.outCap.toNat s.inputSeq)) := by
  have hseq : (startDecode s).inputSeq = s.inputSeq := inputSeq_congr (startDecode_keeps s).same
  by_cases hN : s.inLen = 0#32
  · have hnil : s.inputSeq = [] := by simp [State.inputSeq, hN]
    have hresult := result_startDecode_empty hN
    rw [startDecode_empty hN] at hresult ⊢
    rw [hnil]
    exact hresult
  · have hpos : 0 < s.inLen.toNat := Nat.pos_of_ne_zero fun h0 => hN (BitVec.eq_of_toNat_eq h0)
    have hcons : s.inputSeq = s.inByte 0 :: s.inputSeq.drop 1 := drop_cons hpos
    rw [startDecode_nonempty hN] at hseq ⊢
    refine ⟨[], holds_begin rfl rfl, ?_⟩
    rw [unread_of_ipos_zero rfl, hseq, hcons]
    rfl

section
variable {s : State} (hI : Inv s) (hi : s.input = []) (hl : s.inLen.toNat ≤ s.inCap.toNat)
include hI hi hl

/-- A whole ENCODE from its start on (42_command.md R168, 40_encode.md R100). -/
theorem startEncode_completesWith : CompletesWith (s.inLen.toNat + 1) (startEncode s)
    (expectedResult (encBounded s.outCap.toNat s.inputSeq)) :=
  completesWith_of_willShow (startEncode_inv hI hl) hi (startEncode_willShow s) (Nat.le_refl _)

/-- A whole DECODE from its start on (42_command.md R168, 41_decode.md R130). -/
theorem startDecode_completesWith : CompletesWith (s.inLen.toNat + 1) (startDecode s)
    (expectedResult (decBounded s.outCap.toNat s.inputSeq)) := by
  refine completesWith_of_willShow (startDecode_inv hI hl) ((startDecode_input s).trans hi)
    (startDecode_willShow s) ?_
  obtain ⟨hipos, -⟩ := startDecode_counters s
  simp only [turnsLeft, hipos, startDecode_inLen]
  split <;> simp

end

/-! ### The result is a function of the operands -/

/-- What the host sees after BADLEN, whatever the state was (42_command.md R163). -/
def badLenResult : HostResult := ⟨0x00000012#32, 0#32, 0#32, []⟩

theorem result_badLen (s : State) : (errorCompletion .badLen 0#32 s).result = badLenResult := by
  simp [State.result, badLenResult, statusWord_errorCompletion, ErrCode.code, State.outputSeq]

/-- The result of a launch as a function of IN_CAP, IN_LEN, OUT_CAP and the input: BADLEN, or that of the
bounded codec `f` (42_command.md R160, R168). -/
def launchResult (f : Nat → List Byte → Bounded) (inCap inLen outCap : Word) (x : List Byte) :
    HostResult :=
  if inCap.toNat < inLen.toNat then badLenResult else expectedResult (f outCap.toNat x)

/-- A launch of an idle block completes with BADLEN at once, or as its start does. -/
theorem launch_completesWith {start : State → State} {f : Nat → List Byte → Bounded} {s : State}
    (hb : s.busy = false) (hi : s.input = [])
    (hstart : s.inLen.toNat ≤ s.inCap.toNat →
      CompletesWith (s.inLen.toNat + 1) (start s) (expectedResult (f s.outCap.toNat s.inputSeq))) :
    CompletesWith (s.inLen.toNat + 1) (launch start s)
      (launchResult f s.inCap s.inLen s.outCap s.inputSeq) := by
  unfold launchResult
  by_cases hlong : s.inCap.toNat < s.inLen.toNat
  · rw [launch_long hb hlong, if_pos hlong]
    exact ⟨_, runSteps_idle (s := errorCompletion .badLen 0#32 s) rfl hi _, rfl, Keeps.refl _,
      result_badLen s⟩
  · rw [launch_ok hb (Nat.le_of_not_lt hlong), if_neg hlong]
    exact hstart (Nat.le_of_not_lt hlong)

/-- ENCODE and DECODE each have one bounded codec whose launch result they complete with from every idle
state (42_command.md R168). -/
theorem exec_completesWith {i : Instr} (hop : (∃ g, i = .encode g) ∨ ∃ g, i = .decode g) :
    ∃ f, ∀ s : State, Inv s → s.busy = false → s.input = [] →
      ∃ u, exec i s = .next u ∧ CompletesWith (s.inLen.toNat + 1) u
        (launchResult f s.inCap s.inLen s.outCap s.inputSeq) := by
  rcases hop with ⟨g, rfl⟩ | ⟨g, rfl⟩
  · exact ⟨encBounded, fun s hI hb hi => ⟨_, exec_encode g s,
      launch_completesWith hb hi (startEncode_completesWith hI hi)⟩⟩
  · exact ⟨decBounded, fun s hI hb hi => ⟨_, exec_decode g s,
      launch_completesWith hb hi (startDecode_completesWith hI hi)⟩⟩

/-- Settles O48: both runs complete with the launch result of the same codec, which is a function of the
operands. -/
theorem resultDependsOnlyOnOperands : Obligations.ResultDependsOnlyOnOperands := by
  intro i s s' hop hI hI' hb hb' hi hi' hseq hlen hin hout
  obtain ⟨f, hf⟩ := exec_completesWith hop
  obtain ⟨u, hu, t, ht, hto, -, hR⟩ := hf s hI hb hi
  obtain ⟨u', hu', t', ht', hto', -, hR'⟩ := hf s' hI' hb' hi'
  refine ⟨u, u', t, t', hu, hu', ht, ht', hto, hto', ?_⟩
  rw [hR, hR', hseq, hlen, hin, hout]

/-! ### The round trip through the block -/

/-- A result without error, field by field (42_command.md R168). -/
theorem fields_of_result_ok {t : State} {out : List Byte} (h : t.result = expectedResult (.ok out)) :
    t.statusWord = 0x00000002#32 ∧ t.outLen = BitVec.ofNat 32 out.length ∧
      t.outputSeq = out.map some := by
  simp only [State.result, expectedResult, HostResult.mk.injEq] at h
  obtain ⟨hstatus, hlen, -, hout⟩ := h
  exact ⟨hstatus, hlen, hout⟩

@[simp] theorem inputSeq_length (s : State) : s.inputSeq.length = s.inLen.toNat := by
  simp [State.inputSeq]

/-- Settles O51: the ENCODE completes with `enc` of the input, so the copy is that encoding, whose `dec`
is the input again and fits. -/
theorem roundTripThroughTheBlock : Obligations.RoundTripThroughTheBlock := by
  intro g g' s s' hI hI' hb hb' hi hi' hl hfits
  obtain ⟨t, ht, -, -, hR⟩ := startEncode_completesWith hI hi hl
  have henc : encBounded s.outCap.toNat s.inputSeq = .ok (enc s.inputSeq) :=
    (encoderOverflowsExactlyAboveCapacity _ _).1 hfits
  rw [henc] at hR
  obtain ⟨hstatus, -, hout⟩ := fields_of_result_ok hR
  refine ⟨_, t, by rw [exec_encode, launch_ok hb hl], ht, hstatus, fun _ hcopy hl' hroom => ?_⟩
  have hcopied : s'.inputSeq = enc s.inputSeq :=
    List.map_injective_iff.2 (Option.some_injective Byte) (hcopy.trans hout)
  obtain ⟨t', ht', -, -, hR'⟩ := startDecode_completesWith hI' hi' hl'
  have hdec : decBounded s'.outCap.toNat s'.inputSeq = .ok s.inputSeq := by
    rw [hcopied]
    exact (decoderOverflowsExactlyAboveCapacity _ _).1 _ (decodeInvertsEncodeOnSequences _)
      (by rwa [inputSeq_length])
  rw [hdec] at hR'
  obtain ⟨hstatus', hlen', hout'⟩ := fields_of_result_ok hR'
  refine ⟨_, t', by rw [exec_decode, launch_ok hb' hl'], ht', hstatus', ?_, hout'⟩
  rw [hlen', inputSeq_length, BitVec.ofNat_toNat, BitVec.setWidth_eq]

end Sys2Proof.Machine
end

section
/-! PROOFS. Running operations (42_command.md R165, R168): every one completes within its bound, a whole
command computes its bounded codec, and host reads in between change no result. -/

namespace Sys2Proof.Machine

open Sys2Proof.Codec

/-! ### Completion within the bound -/

/-- A running operation is heading for the result of a bounded codec (42_command.md R168). -/
theorem Inv.exists_willShow_expected {s : State} (hI : Inv s) (ho : s.op ≠ .none) :
    ∃ B, WillShow s (expectedResult B) := by
  obtain ⟨out, hout⟩ := hI.exists_holds (hI.busy ho)
  unfold WillShow
  cases hop : s.op with
  | none => exact absurd hop ho
  | enc => exact ⟨_, out, hout, rfl⟩
  | dec => exact ⟨_, out, hout, rfl⟩

/-- Every result of a bounded codec has BUSY = 0 and DONE = 1 (42_command.md R168). -/
theorem expectedResult_status (B : Bounded) :
    (expectedResult B).status.getLsbD 0 = false ∧ (expectedResult B).status.getLsbD 1 = true := by
  cases B <;> simp [expectedResult]

/-- A state that shows such a result has completed. -/
theorem completed_of_result {t : State} {B : Bounded} (h : t.result = expectedResult B) :
    t.busy = false ∧ t.done = true := by
  obtain ⟨hbusy, hdone, -⟩ := status_fields t
  have hstatus : t.statusWord = (expectedResult B).status := congrArg HostResult.status h
  obtain ⟨h0, h1⟩ := expectedResult_status B
  rw [hstatus] at hbusy hdone
  exact ⟨hbusy.symm.trans h0, hdone.symm.trans h1⟩

/-- Settles O45: the turns left of a running operation complete it with the result of a bounded codec,
which shows BUSY = 0 and DONE = 1. -/
theorem everyOperationCompletes : Obligations.EveryOperationCompletes := by
  intro s hI ho hi
  obtain ⟨B, hB⟩ := hI.exists_willShow_expected ho
  obtain ⟨t, ht, hto, -, hR⟩ := completesWith_of_willShow hI hi hB (Nat.le_refl _)
  exact ⟨turnsLeft s, t, (turnsLeft_running ho).le, ht, hto, completed_of_result hR⟩

/-! ### Whole commands -/

/-- Settles O46: the ENCODE passes its checks, and its start completes with the bounded encoder's
result. -/
theorem encodeCommandComputesEnc : Obligations.EncodeCommandComputesEnc := by
  intro g s hI hb hi hl
  obtain ⟨t, ht, hto, hkeeps, hR⟩ := startEncode_completesWith hI hi hl
  exact ⟨startEncode s, t, by rw [exec_encode, launch_ok hb hl], ht, hto,
    ((startEncode_keeps s).trans hkeeps).same, hR⟩

/-- Settles O47: the DECODE passes its checks, and its start completes with the bounded decoder's
result. -/
theorem decodeCommandComputesDec : Obligations.DecodeCommandComputesDec := by
  intro g s hI hb hi hl
  obtain ⟨t, ht, hto, hkeeps, hR⟩ := startDecode_completesWith hI hi hl
  exact ⟨startDecode s, t, by rw [exec_decode, launch_ok hb hl], ht, hto,
    ((startDecode_keeps s).trans hkeeps).same, hR⟩

/-! ### Host reads between engine turns -/

/-- An engine turn or a host read: the events that write nothing to the port (20_memory.md R58). -/
def Event.Quiet (e : Event) : Prop := e = .engine ∨ ∃ w a, e = .access (.read w a)

/-- A read changes no part of the result to come (20_memory.md R58). -/
theorem hostRead_willShow {s : State} {R : HostResult} (hR : WillShow s R) (w : Width) (a : Word) :
    WillShow (hostRead w a s) R := by
  obtain ⟨v, d, e⟩ := hostRead_form w a s
  rw [e]
  exact hR

/-- A quiet event keeps the invariant, the result to come, IN and IN_LEN, whether or not an operation
runs. -/
theorem eventTurn_quiet {s : State} {R : HostResult} {e : Event} (hI : Inv s) (hR : WillShow s R)
    (he : e.Quiet) : ∃ t, eventTurn e s = .next t ∧ Inv t ∧ WillShow t R ∧ t.input = s.input ∧
      t.inBuf = s.inBuf ∧ t.inLen = s.inLen := by
  rcases he with rfl | ⟨w, a, rfl⟩
  · by_cases ho : s.op = .none
    · exact ⟨s, engineTurn_idle ho, hI, hR, rfl, rfl, rfl⟩
    · obtain ⟨t, ht, hIt, ⟨⟨-, -, hlen, hbuf, -, -⟩, hinput⟩, hRt, -⟩ := engineTurn_towards hI ho hR
      exact ⟨t, ht, hIt, hRt, hinput, hbuf, hlen⟩
  · exact ⟨hostRead w a s, accessTurn_other (a := .read w a) rfl s, hostRead_inv hI w a, hostRead_willShow hR w a,
      hostRead_input w a s, hostRead_inBuf w a s, hostRead_inLen w a s⟩

theorem turnsLeft_le (s : State) : turnsLeft s ≤ s.inLen.toNat + 1 := by
  unfold turnsLeft
  split <;> omega

/-- Quiet events, and then the engine alone, end in the result the block was heading for before them. -/
theorem runSteps_quiet {s : State} {R : HostResult} {events : List Event} (hI : Inv s)
    (hR : WillShow s R) (hi : s.input = events) (hquiet : ∀ e ∈ events, e.Quiet) :
    ∃ t, runSteps (events.length + (s.inLen.toNat + 1)) s = .next t ∧ t.op = .none ∧
      t.result = R ∧ t.inBuf = s.inBuf ∧ t.inLen = s.inLen := by
  induction events generalizing s with
  | nil =>
    obtain ⟨t, ht, hto, hkeeps, hRt⟩ := completesWith_of_willShow hI hi hR (turnsLeft_le s)
    obtain ⟨-, -, hlen, hbuf, -, -⟩ := hkeeps.same
    exact ⟨t, by rwa [List.length_nil, Nat.zero_add], hto, hRt, hbuf, hlen⟩
  | cons e rest ih =>
    obtain ⟨he, hrest⟩ := List.forall_mem_cons.1 hquiet
    obtain ⟨u, hu, hIu, hRu, hinput, hbuf, hlen⟩ :=
      eventTurn_quiet (s := s.withInput rest) (hI.withInput rest) hR he
    obtain ⟨t, ht, hto, hRt, hbuf', hlen'⟩ := ih hIu hRu hinput hrest
    rw [hlen] at ht
    refine ⟨t, ?_, hto, hRt, hbuf'.trans hbuf, hlen'.trans hlen⟩
    rw [List.length_cons, Nat.add_right_comm, runSteps_succ _ ((step_cons hi).trans hu)]
    exact ht

/-- Settles O49: with and without the events in between, the run ends in the result that the operation
is heading for. -/
theorem interleavedReadsDoNotMatter : Obligations.InterleavedReadsDoNotMatter := by
  intro s events hI _ hi hquiet
  obtain ⟨R, hR⟩ := hI.exists_willShow
  obtain ⟨t, ht, hto, hkeeps, hRt⟩ := completesWith_of_willShow hI hi hR (turnsLeft_le s)
  obtain ⟨t', ht', hto', hRt', hbuf, hlen⟩ :=
    runSteps_quiet (s := s.withInput events) (hI.withInput events) hR rfl hquiet
  exact ⟨t, t', ht, ht', hto, hto', hRt'.trans hRt.symm, hkeeps.same, hbuf, hlen⟩

end Sys2Proof.Machine
end

section
/-! PROOFS. CMD writes (42_command.md R160 to R163, R169): which instruction a step runs, and each check of
a command in its order. -/

namespace Sys2Proof.Machine

/-! ### The instruction a step runs -/

/-- A step that takes a CMD write runs the command its word decodes to (42_command.md R160). -/
theorem step_command {s : State} {w : Word} {rest : List Event}
    (h : s.input = .access (.write .w32 0x004#32 w) :: rest) :
    step s = exec (decodeCommand w) (s.withInput rest) := by
  rw [step_cons h, eventTurn_access, accessTurn_command]

/-- Settles O23: a CMD write by `step_command`, and an engine turn of a DECODE, scheduled or with no
event left, by the record it decodes. -/
theorem stepRunsTheDecodedInstruction : Obligations.StepRunsTheDecodedInstruction := by
  refine ⟨fun s w rest h => step_command h, fun s i rest ho hlt hmark hd => ⟨fun hi => ?_,
    fun events hi => ?_⟩⟩
  · rw [step_dec ho hi, decodeTurn_runs_record hlt hmark hd]
  · have hturn : engineTurn (s.withInput events) = decodeTurn (s.withInput events) := by
      simp [engineTurn, ho]
    rw [step_cons hi, eventTurn_engine, hturn]
    exact decodeTurn_runs_record (s := s.withInput events) hlt hmark hd

/-- Settles O25, by NOP's meaning. -/
theorem nopChangesNothing : Obligations.NopChangesNothing := exec_nop

/-! ### While BUSY -/

/-- While BUSY a write to the port changes nothing (42_command.md R169). -/
theorem accessTurn_write_busy {s : State} (hb : s.busy = true) (w : Width) (a d : Word) :
    accessTurn (.write w a d) s = .next s := by
  rcases commandOf_cases (.write w a d) with ⟨c, hc⟩ | hother
  · rw [hc, accessTurn_command, exec_busy hb]
  · rw [accessTurn_other hother]
    rcases hostAccess_cases (.write w a d) s with ⟨_, _, hread, _⟩ | hsame | ⟨hidle, _⟩ | ⟨hidle, _⟩
    · cases hread
    · rw [hsame]
    · exact absurd hb (by simp [hidle])
    · exact absurd hb (by simp [hidle])

/-- Settles O15: the step takes the write, which changes nothing. -/
theorem writesWhileBusyAreIgnored : Obligations.WritesWhileBusyAreIgnored := by
  intro s w a d rest hb hi
  rw [step_cons hi, eventTurn_access, accessTurn_write_busy (s := s.withInput rest) hb]

/-! ### The checks of an idle block -/

/-- The reserved command is BADCMD(0) unless BUSY (42_command.md R162). -/
theorem exec_reserved_idle {s : State} (hb : s.busy = false) (g : BitVec 30) :
    exec (.reserved g) s = .next (errorCompletion .badCmd 0#32 s) := by
  simp [hb]

/-- Settles O26: the error completion with code BADCMD at position 0. -/
theorem reservedCommandIsBadCmd : Obligations.ReservedCommandIsBadCmd := by
  intro g s hb
  obtain ⟨hstatus, hpos, hlen, hop, hout⟩ :=
    errorCompletion_shows (c := .badCmd) (by decide) rfl 0#32 s
  obtain ⟨hsame, hinput⟩ := keeps_error .badCmd 0#32 s
  exact ⟨_, exec_reserved_idle hb g, hstatus, rfl, rfl, rfl, hlen, hpos, hop, hsame, hinput, hout⟩

@[simp] theorem startDecode_err (s : State) : (startDecode s).err = .noError := by
  unfold startDecode
  split <;> rfl

/-- ENCODE and DECODE are each the launch of a start that raises no error (42_command.md R160). -/
theorem exec_launches {i : Instr} (hop : (∃ g, i = .encode g) ∨ ∃ g, i = .decode g) :
    ∃ start, ∀ s, exec i s = .next (launch start s) ∧ (start s).err = .noError := by
  rcases hop with ⟨g, rfl⟩ | ⟨g, rfl⟩
  · exact ⟨startEncode, fun s => ⟨exec_encode g s, rfl⟩⟩
  · exact ⟨startDecode, fun s => ⟨exec_decode g s, startDecode_err s⟩⟩

/-- ENCODE and DECODE of an idle block with IN_LEN > IN_CAP are BADLEN(0) (42_command.md R163). -/
theorem exec_badLen {i : Instr} {s : State} (hop : (∃ g, i = .encode g) ∨ ∃ g, i = .decode g)
    (hb : s.busy = false) (hlong : s.inCap.toNat < s.inLen.toNat) :
    exec i s = .next (errorCompletion .badLen 0#32 s) := by
  obtain ⟨start, hstart⟩ := exec_launches hop
  rw [(hstart s).1, launch_long hb hlong]

/-- Settles O29: above the capacity the error completion with code BADLEN at position 0, which reads no
IN byte; at the capacity the start. -/
theorem lengthAboveCapacityIsBadLen : Obligations.LengthAboveCapacityIsBadLen := by
  intro i s hop hb
  refine ⟨fun hlong => ?_, fun hcap => ?_⟩
  · obtain ⟨hstatus, hpos, hlen, hnone, hout⟩ :=
      errorCompletion_shows (c := .badLen) (by decide) rfl 0#32 s
    obtain ⟨hsame, hinput⟩ := keeps_error .badLen 0#32 s
    exact ⟨_, exec_badLen hop hb hlong, hstatus, rfl, rfl, rfl, hlen, hpos, hnone, hsame, hinput,
      hout, fun m => exec_badLen (s := { s with inBuf := m }) hop hb hlong⟩
  · obtain ⟨start, hstart⟩ := exec_launches hop
    obtain ⟨hexec, herr⟩ := hstart s
    exact ⟨start s, by rw [hexec, launch_ok hb (by rw [hcap])], herr⟩

/-- A CMD word with OP = 0b01 or 0b10 is ENCODE or DECODE (30_encoding.md R75). -/
theorem decodeCommand_operation {w : Word} (h : w.extractLsb' 0 2 = 1#2 ∨ w.extractLsb' 0 2 = 2#2) :
    (∃ g, decodeCommand w = .encode g) ∨ ∃ g, decodeCommand w = .decode g :=
  h.imp (fun h => ⟨_, decodeCommand_eq_encode h⟩) fun h => ⟨_, decodeCommand_eq_decode h⟩

/-- An accepted CMD word with OP = 0b10 is the DECODE start (42_command.md R164). -/
theorem exec_decodeCommand_startDecode {w : Word} {s : State} (h : w.extractLsb' 0 2 = 2#2)
    (hb : s.busy = false) (hl : s.inLen.toNat ≤ s.inCap.toNat) :
    exec (decodeCommand w) s = .next (startDecode s) := by
  rw [decodeCommand_eq_decode h, exec_decode, launch_ok hb hl]

/-- Settles O30: the step runs the decoded command with the event taken; each clause names the check that
decides its outcome. -/
theorem commandChecksInOrder : Obligations.CommandChecksInOrder := by
  intro s w rest h
  rw [step_command h, ← State.withInput_busy s rest, ← State.withInput_inCap s rest,
    ← State.withInput_inLen s rest]
  generalize s.withInput rest = u
  obtain ⟨t, ht⟩ := exec_next (decodeCommand w) u
  have eq_of_exec {v : State} (hv : exec (decodeCommand w) u = .next v) : t = v := by
    simpa [ht] using hv
  refine ⟨t, ht, fun hb => ?busy, fun _ hop => ?nop, fun hb hop => ?badCmd,
    fun hb hop hlong => ?badLen, fun hb hop hl => ?encode, fun hb hop hl hN => ?decode,
    fun hb hop hN => ?empty⟩
  case busy => exact eq_of_exec (exec_busy hb w)
  case nop => exact eq_of_exec (by rw [decodeCommand_eq_nop hop, exec_nop])
  case badCmd =>
    obtain rfl := eq_of_exec (by rw [decodeCommand_eq_reserved hop, exec_reserved_idle hb])
    exact ⟨statusWord_error rfl, rfl, rfl, rfl⟩
  case badLen =>
    obtain rfl := eq_of_exec (exec_badLen (decodeCommand_operation hop) hb hlong)
    exact ⟨statusWord_error rfl, rfl, rfl, rfl⟩
  case encode =>
    obtain rfl := eq_of_exec (by rw [decodeCommand_eq_encode hop, exec_encode, launch_ok hb hl])
    exact ⟨statusWord_running rfl rfl rfl, rfl⟩
  case decode =>
    obtain rfl := eq_of_exec (exec_decodeCommand_startDecode hop hb hl)
    rw [startDecode_nonempty hN]
    exact ⟨statusWord_running rfl rfl rfl, rfl⟩
  case empty =>
    obtain rfl := eq_of_exec (exec_decodeCommand_startDecode hop hb (by simp [hN]))
    rw [startDecode_empty hN]
    exact ⟨statusWord_completeOk _, rfl, rfl⟩

end Sys2Proof.Machine
end

section
/-! PROOFS. Exceptions (60_exceptions.md): whatever step raises an error is an error completion, and a
DECODE that ends in a truncated marker overflows at its literal or is malformed at its marker. -/

namespace Sys2Proof.Machine

/-! ### What raises an error -/

/-- An engine turn that raises an error is an error completion (60_exceptions.md R205). -/
theorem engineTurn_raises {s t : State} (h : engineTurn s = .next t) (hs : s.err = .noError)
    (ht : t.err ≠ .noError) : ∃ c p, t = errorCompletion c p s := by
  rcases engineTurn_cases h with ⟨_, _, _, herr, _⟩ | ⟨u, _, rfl⟩ | ⟨c, p, _, rfl⟩
  · exact absurd (herr.trans hs) ht
  · exact absurd rfl ht
  · exact ⟨c, p, rfl⟩

/-- A CMD write that raises an error is an error completion with no BUSY phase (42_command.md R160). -/
theorem command_raises {s t : State} {w : Word} (h : exec (decodeCommand w) s = .next t)
    (hs : s.err = .noError) (ht : t.err ≠ .noError) : ∃ c p, t = errorCompletion c p s := by
  rcases exec_command_cases w s with e | ⟨_, c, _, e⟩ | ⟨_, _, e | e⟩ <;> rw [e] at h <;> cases h
  · exact absurd hs ht
  · exact ⟨c, 0#32, rfl⟩
  · exact absurd rfl ht
  · exact absurd (startDecode_err s) ht

/-- A step that raises an error is an error completion of the state with the event taken: neither a
reset nor a port access raises one (60_exceptions.md R205). -/
theorem step_raises {s t : State} (h : step s = .next t) (hs : s.err = .noError)
    (ht : t.err ≠ .noError) : ∃ c p events, t = errorCompletion c p (s.withInput events) := by
  rcases step_cases h with ⟨_, h⟩ | ⟨rest, ⟨_, h⟩ | ⟨_, rfl⟩ | ⟨w, _, h⟩ | ⟨a, _, _, rfl⟩⟩
  · obtain ⟨c, p, hraise⟩ := engineTurn_raises h hs ht
    exact ⟨c, p, s.input, hraise⟩
  · obtain ⟨c, p, hraise⟩ := engineTurn_raises h hs ht
    exact ⟨c, p, rest, hraise⟩
  · exact absurd rfl ht
  · obtain ⟨c, p, hraise⟩ := command_raises h hs ht
    exact ⟨c, p, rest, hraise⟩
  · obtain ⟨_, _, herr, _⟩ := hostAccess_frame a (s.withInput rest)
    exact absurd (herr.trans hs) ht

/-- Settles O31: the step is an error completion, whose code is the error raised. -/
theorem everyErrorIsAnErrorCompletion : Obligations.EveryErrorIsAnErrorCompletion := by
  intro s t h hs ht
  obtain ⟨c, p, events, rfl⟩ := step_raises h hs ht
  obtain ⟨hstatus, _, hlen, hop, hread⟩ := errorCompletion_shows ht rfl p (s.withInput events)
  exact ⟨rfl, rfl, hstatus, hlen, hop, hread, (keeps_error c p (s.withInput events)).same⟩

/-! ### A truncated marker -/

/-- With no event to come and an equal pair as its last two bytes, a DECODE at a record boundary takes
the literal and the marker in one turn (60_exceptions.md R201; log 1). -/
theorem step_truncated {s : State} (ho : s.op = .dec) (hi : s.input = [])
    (hN : s.ipos.toNat + 2 = s.inLen.toNat) (hmark : s.isMarker s.currentByte = false)
    (heq : s.inByte (s.ipos.toNat + 1) = s.currentByte) :
    step s = .next (truncatedTurn s.currentByte s) := by
  rw [step_dec ho hi, decodeTurn, if_pos (by omega), if_neg (by simp [hmark]),
    decode_fetch_truncated hN heq]

/-- With no room for the literal the turn overflows at it (41_decode.md R137). -/
theorem truncatedTurn_full (c : Byte) {s : State} (h : s.opos = s.outCap) :
    truncatedTurn c s = errorCompletion .overflow s.ipos s := by
  rw [truncatedTurn, literalStep_full c h]
  rfl

/-- A marker that is the last byte is MALFORMED (41_decode.md R135). -/
theorem markerTurn_last {m : State} (h : m.ipos.toNat + 1 = m.inLen.toNat) :
    markerTurn m = .error ⟨.malformed, m.ipos⟩ := if_pos h

/-- With room for the literal the turn is malformed at the byte after it (60_exceptions.md R201). -/
theorem truncatedTurn_room (c : Byte) {s : State} (h : s.opos ≠ s.outCap)
    (hN : s.ipos.toNat + 2 = s.inLen.toNat) :
    truncatedTurn c s = errorCompletion .malformed (s.ipos + 1#32) s := by
  have hlast : (s.ipos + 1#32).toNat + 1 = s.inLen.toNat := by
    rw [ipos_add (k := 1) (by omega), ← hN]
  rw [truncatedTurn, literalStep_of_ne c h, Except.bind, markerTurn_last hlast, settle_error]

/-- Settles O36: the one turn is the error of the literal or that of the marker, by whether the literal
fits. -/
theorem truncatedMarkerIsMalformed : Obligations.TruncatedMarkerIsMalformed := by
  intro s ho hi hN _ hmark heq
  have hstep := step_truncated ho hi hN hmark heq.symm
  by_cases hfull : s.opos = s.outCap
  · rw [truncatedTurn_full _ hfull] at hstep
    exact ⟨_, hstep, rfl, rfl, (keeps_error ..).same, fun hroom => absurd hfull hroom,
      fun _ => ⟨statusWord_error rfl, rfl⟩⟩
  · rw [truncatedTurn_room _ hfull hN] at hstep
    have hpos : (s.ipos + 1#32).toNat = s.inLen.toNat - 1 := by
      rw [ipos_add (k := 1) (by omega), ← hN]; rfl
    exact ⟨_, hstep, rfl, rfl, (keeps_error ..).same, fun _ => ⟨statusWord_error rfl, hpos⟩,
      fun h => absurd h hfull⟩

end Sys2Proof.Machine
end

section
/-! PROOFS. Reset (70_reset_and_hazards.md R230 to R241): what it leaves in the registers, and that what it
leaves unspecified is not read before a start sets it. -/

namespace Sys2Proof.Machine

/-! ### Reset in any state -/

theorem step_reset {s : State} {rest : List Event} (h : s.input = .reset :: rest) :
    step s = .next (applyReset (s.withInput rest)) := by
  rw [step_cons h, eventTurn_reset]

@[simp] theorem statusWord_applyReset (s : State) : (applyReset s).statusWord = 0#32 := by
  simp [State.statusWord, ErrCode.code]

/-- IN is any value after reset: the free value of this reset (70_reset_and_hazards.md R231, log 4). -/
@[simp] theorem inByte_applyReset (s : State) (i : Nat) :
    (applyReset s).inByte i = Config.freeIn (s.resets + 1) i := by
  simp [State.inByte]

/-- No byte of OUT is readable as a value after reset (70_reset_and_hazards.md R231). -/
theorem readPort_out_applyReset {s : State} (hcaps : s.legalCaps) {j : Nat}
    (hj : j < s.outCap.toNat) :
    readPort (applyReset s) .w8 (BitVec.ofNat 32 (0x80000000 + j)) = .any := by
  have hr := region_out (s := applyReset s) hcaps hj
  rw [readPort_out hr, if_pos rfl, readOut_any (by simp [State.outReadable])]

/-- Settles O1: the step is `applyReset`, and `registerWindowAccesses` says what each of its
registers reads. -/
theorem resetAbandonsTheCommand : Obligations.ResetAbandonsTheCommand := by
  intro s rest hcaps hi
  obtain ⟨hid, hcmd, hstatus, hinLen, houtLen, herrPos, hinCap, houtCap, -⟩ :=
    registerWindowAccesses.1 (applyReset (s.withInput rest))
  exact ⟨_, step_reset hi, rfl, rfl, rfl, rfl, hid, hcmd, by rw [hstatus, statusWord_applyReset],
    hinLen, houtLen, herrPos, hinCap, houtCap, inByte_applyReset _,
    fun _ => readPort_out_applyReset (s := s.withInput rest) hcaps, rfl, rfl⟩

/-! ### The registers unspecified at reset -/

/-- Values of the internal registers that are unspecified at reset: all of 10_state.md R33 to R35 but
`op` (70_reset_and_hazards.md R230). -/
structure Unspecified where
  ipos : Word
  opos : Word
  eOpen : Bool
  eVal : Byte
  eRep : Bool
  eCnt : Byte
  dPrev : Byte
  dArmed : Bool

/-- The state with other values of the unspecified registers. -/
def State.withUnspecified (s : State) (u : Unspecified) : State :=
  { s with ipos := u.ipos, opos := u.opos, eOpen := u.eOpen, eVal := u.eVal, eRep := u.eRep,
           eCnt := u.eCnt, dPrev := u.dPrev, dArmed := u.dArmed }

@[simp] theorem State.withUnspecified_busy (s : State) (u : Unspecified) :
    (s.withUnspecified u).busy = s.busy := rfl
@[simp] theorem State.withUnspecified_inCap (s : State) (u : Unspecified) :
    (s.withUnspecified u).inCap = s.inCap := rfl
@[simp] theorem State.withUnspecified_inLen (s : State) (u : Unspecified) :
    (s.withUnspecified u).inLen = s.inLen := rfl
@[simp] theorem State.withUnspecified_region (s : State) (u : Unspecified) (a : Word) :
    (s.withUnspecified u).region a = s.region a := rfl

/-- The states differ only in the unspecified registers, and not in those that the operation running
in the first one reads before it writes them (40_encode.md R104, 41_decode.md R132). -/
def AgreesWhereRead (t t' : State) : Prop :=
  { t' with ipos := t.ipos, opos := t.opos, eOpen := t.eOpen, eVal := t.eVal, eRep := t.eRep,
            eCnt := t.eCnt, dPrev := t.dPrev, dArmed := t.dArmed } = t ∧
  (t.op ≠ .none → t'.ipos = t.ipos ∧ t'.opos = t.opos) ∧
  (t.op = .enc → t'.eOpen = t.eOpen ∧ t.eOpen = false) ∧
  (t.op = .dec → t'.dPrev = t.dPrev ∧ t'.dArmed = t.dArmed)

/-- Both answers are next states, and these agree where the operation reads. -/
def AnswersAgree (r r' : Host.Outcome State Fault Refusal) : Prop :=
  ∃ t t', r = .next t ∧ r' = .next t' ∧ AgreesWhereRead t t'

theorem AgreesWhereRead.next {t t' : State} (h : AgreesWhereRead t t') :
    AnswersAgree (.next t) (.next t') := ⟨t, t', rfl, rfl, h⟩

section
variable {s : State} (u : Unspecified)

/-- An idle state reads none of the unspecified registers. -/
theorem agreesWhereRead_idle (ho : s.op = .none) : AgreesWhereRead s (s.withUnspecified u) :=
  ⟨rfl, fun h => absurd ho h, by simp [ho], by simp [ho]⟩

/-- An idle state agrees with itself: nothing of the unspecified registers is left to compare. -/
theorem agreesWhereRead_refl_idle (ho : s.op = .none) : AgreesWhereRead s s :=
  agreesWhereRead_idle ⟨s.ipos, s.opos, s.eOpen, s.eVal, s.eRep, s.eCnt, s.dPrev, s.dArmed⟩ ho

/-! #### The host port reads none of them -/

theorem readPort_withUnspecified (w : Width) (a : Word) :
    readPort (s.withUnspecified u) w a = readPort s w a := rfl

theorem hostRead_withUnspecified (w : Width) (a : Word) :
    hostRead w a (s.withUnspecified u) = (hostRead w a s).withUnspecified u := by
  unfold hostRead
  rw [readPort_withUnspecified]
  cases readPort s w a <;> rfl

theorem writeRegister_withUnspecified (a : Nat) (d : Word) :
    writeRegister (s.withUnspecified u) a d = (writeRegister s a d).withUnspecified u := by
  by_cases ha : a = 0xC
  · subst ha
    dsimp only [writeRegister]
    rw [State.withUnspecified_busy]
    split_ifs <;> rfl
  · rw [writeRegister_other ha, writeRegister_other ha]

theorem hostWrite_withUnspecified (w : Width) (a d : Word) :
    hostWrite w a d (s.withUnspecified u) = (hostWrite w a d s).withUnspecified u := by
  rw [hostWrite, hostWrite, State.withUnspecified_region, State.withUnspecified_busy]
  cases s.region a with
  | register k =>
    dsimp only
    rw [writeRegister_withUnspecified]
    split_ifs <;> rfl
  | inByte i => dsimp only; split_ifs <;> rfl
  | outByte j => rfl
  | unmapped => rfl

theorem hostAccess_withUnspecified (a : Access) :
    hostAccess a (s.withUnspecified u) = (hostAccess a s).withUnspecified u := by
  cases a with
  | read w o => exact hostRead_withUnspecified u w o
  | write w o d => exact hostWrite_withUnspecified u w o d

/-! #### A command sets what its operation reads -/

/-- An error completion draws the unspecified registers anew, whatever they were (log 7). -/
theorem errorCompletion_withUnspecified (c : ErrCode) (p : Word) :
    errorCompletion c p (s.withUnspecified u) = errorCompletion c p s := rfl

/-- The ENCODE start sets both counters and `e_open` (40_encode.md R104). -/
theorem startEncode_agrees : AgreesWhereRead (startEncode s) (startEncode (s.withUnspecified u)) :=
  ⟨rfl, fun _ => ⟨rfl, rfl⟩, fun _ => ⟨rfl, rfl⟩, nofun⟩

/-- The DECODE start sets both counters, `d_prev` and `d_armed`, or completes (41_decode.md R132). -/
theorem startDecode_agrees :
    AgreesWhereRead (startDecode s) (startDecode (s.withUnspecified u)) := by
  by_cases hN : s.inLen = 0#32
  · rw [startDecode_empty hN, startDecode_empty (s := s.withUnspecified u) hN]
    exact ⟨rfl, fun h => absurd rfl h, nofun, nofun⟩
  · rw [startDecode_nonempty hN, startDecode_nonempty (s := s.withUnspecified u) hN]
    exact ⟨rfl, fun _ => ⟨rfl, rfl⟩, nofun, fun _ => ⟨rfl, rfl⟩⟩

/-- The checks of a launch read none of the registers, so it agrees where its start does. -/
theorem launch_agrees {start : State → State} (ho : s.op = .none)
    (hstart : AgreesWhereRead (start s) (start (s.withUnspecified u))) :
    AgreesWhereRead (launch start s) (launch start (s.withUnspecified u)) := by
  rw [launch, launch, State.withUnspecified_busy, State.withUnspecified_inCap,
    State.withUnspecified_inLen, errorCompletion_withUnspecified]
  split_ifs
  · exact agreesWhereRead_idle u ho
  · exact agreesWhereRead_refl_idle rfl
  · exact hstart

/-- NOP does nothing, an operation is launched, and the reserved command is an error (42_command.md
R160). -/
theorem exec_command_agrees (w : Word) (ho : s.op = .none) :
    AnswersAgree (exec (decodeCommand w) s) (exec (decodeCommand w) (s.withUnspecified u)) := by
  rcases op_cases w with ⟨-, g, e⟩ | ⟨-, g, e⟩ | ⟨-, g, e⟩ | ⟨-, g, e⟩ <;> rw [e]
  · exact (agreesWhereRead_idle u ho).next
  · exact (launch_agrees u ho (startEncode_agrees u)).next
  · exact (launch_agrees u ho (startDecode_agrees u)).next
  · rw [exec_reserved, exec_reserved, State.withUnspecified_busy, errorCompletion_withUnspecified]
    split_ifs
    · exact (agreesWhereRead_idle u ho).next
    · exact (agreesWhereRead_refl_idle rfl).next

/-! #### One step -/

theorem accessTurn_agrees (a : Access) (ho : s.op = .none) :
    AnswersAgree (accessTurn a s) (accessTurn a (s.withUnspecified u)) := by
  rcases commandOf_cases a with ⟨w, rfl⟩ | hn
  · exact exec_command_agrees u w ho
  · rw [accessTurn_other hn, accessTurn_other hn, hostAccess_withUnspecified]
    obtain ⟨-, -, -, hop, -⟩ := hostAccess_frame a s
    exact (agreesWhereRead_idle u (hop.trans ho)).next

theorem engineTurn_agrees (ho : s.op = .none) :
    AnswersAgree (engineTurn s) (engineTurn (s.withUnspecified u)) := by
  rw [engineTurn_idle ho, engineTurn_idle (s := s.withUnspecified u) ho]
  exact (agreesWhereRead_idle u ho).next

theorem eventTurn_agrees (e : Event) (ho : s.op = .none) :
    AnswersAgree (eventTurn e s) (eventTurn e (s.withUnspecified u)) := by
  cases e with
  | access a => exact accessTurn_agrees u a ho
  | engine => exact engineTurn_agrees u ho
  | reset => exact (agreesWhereRead_refl_idle (s := applyReset s) rfl).next

theorem step_agrees (ho : s.op = .none) : AnswersAgree (step s) (step (s.withUnspecified u)) := by
  cases hi : s.input with
  | nil =>
    rw [step_nil hi, step_nil (s := s.withUnspecified u) hi]
    exact engineTurn_agrees u ho
  | cons e rest =>
    rw [step_cons hi, step_cons (s := s.withUnspecified u) hi]
    exact eventTurn_agrees (s := s.withInput rest) u e ho

end

/-- Settles O5, by whose turn the step is: the port and an idle engine turn leave the registers alone, an
error and reset set them all, and a start sets those its operation reads. -/
theorem unspecifiedRegistersAreNotRead : Obligations.UnspecifiedRegistersAreNotRead :=
  fun _ ip op o r a v c p ho => step_agrees ⟨ip, op, o, v, r, c, p, a⟩ ho

end Sys2Proof.Machine
end
